-- ==== Sys2Proof/Word.lean ====
section
/-! DEFINITION. The machine's word types. The widths are those of `10_state.md` R21, `30_encoding.md` R90 and
`00_scope.md` R14; every quantity is unsigned (R9). -/

namespace Sys2Proof

/-- A command word, and the data of a response (R90, R92). -/
abbrev Word := BitVec 32

/-- One element of a buffer: 16 bits (R21). -/
abbrev Sample := BitVec 16

/-- A colour as the display primitive takes it: 16 opaque bits (R4, R14). -/
abbrev Colour := BitVec 16

end Sys2Proof
end

