-- ==== Sys2Proof/Config.lean ====
section
/-! DEFINITION. The configuration record `CFG` of `00_scope.md` R4 with the host parameters of R5, its constraints,
the reference configuration `CFG_T` of R8, and the free values (`any_16`, R15; what the host has at startup, R292). -/

namespace Sys2Proof

/-- A button event (`10_state.md` R28). -/
inductive Event where
  | none
  | press
  | doublePress
  | longPress
  deriving DecidableEq, Repr, Inhabited

/-- The Mode Controller's mode (`44_mode_controller.md` R240). -/
inductive Mode where
  | scope
  | generator
  | idle
  deriving DecidableEq, Repr, Inhabited

/-- A positive rational, as a fraction that need not be in lowest terms (log 9). -/
structure Ratio where
  num : Nat
  den : Nat
  deriving DecidableEq, Repr, Inhabited

/-- `0 < q ≤ 65536`, the constraint R4 puts on `SCALE_NOM` and `SCALE_K`. -/
abbrev Ratio.InRange (q : Ratio) : Prop := 0 < q.den ∧ 0 < q.num ∧ q.num ≤ 65536 * q.den

/-- `CFG` (R4) and the host parameters (R5). The names are the spec's. `PAUSE_EVENT` is a button and an event kind. -/
structure Cfg where
  N : Nat
  W : Nat
  H : Nat
  TRIG_TH : Nat
  SCALE_NOM : Ratio
  SCALE_K : Ratio
  DECIM_MAX : Nat
  NB : Nat
  MIN_TH : Nat
  LONG_TH : Nat
  DUR_CAP : Nat
  DBL_WINDOW : Nat
  X0 : Nat
  Y0 : Nat
  FG : Colour
  BG : Colour
  MODE_BTN : Nat
  MODE_RESET : Mode
  PAUSE_BTN : Nat
  PAUSE_KIND : Event
  deriving DecidableEq, Repr

/-- The constraints of R4 and R5. The rules promise nothing for a `CFG` that breaks one
(`93_implementation_defined.md` U8). -/
abbrev Cfg.Valid (c : Cfg) : Prop :=
  (1 ≤ c.N ∧ c.N ≤ 65535) ∧
  (1 ≤ c.W ∧ c.W ≤ 65535) ∧
  (1 ≤ c.H ∧ c.H ≤ 65535) ∧
  c.TRIG_TH ≤ c.H ∧
  c.SCALE_NOM.InRange ∧
  c.SCALE_K.InRange ∧
  (1 ≤ c.DECIM_MAX ∧ c.DECIM_MAX ≤ 65535) ∧
  (1 ≤ c.NB ∧ c.NB ≤ 16) ∧
  1 ≤ c.MIN_TH ∧
  c.MIN_TH ≤ c.LONG_TH ∧
  (c.LONG_TH ≤ c.DUR_CAP ∧ c.DUR_CAP ≤ 65535) ∧
  (1 ≤ c.DBL_WINDOW ∧ c.DBL_WINDOW ≤ 65535) ∧
  c.X0 + c.W - 1 ≤ 65535 ∧
  c.Y0 + c.H ≤ 65535 ∧
  c.FG ≠ c.BG ∧
  c.MODE_BTN < c.NB ∧
  c.PAUSE_BTN < c.NB ∧
  c.PAUSE_KIND ≠ Event.none

/-- The baseline value: `BASE = H` (R7). -/
def Cfg.BASE (c : Cfg) : Sample := BitVec.ofNat 16 c.H

namespace Config

/-- `CFG_T`, the reference test configuration of R8. R8 gives no `PAUSE_EVENT`; a Press of button 1 stands in for it
(DESIGN CHOICE, log 1). -/
def cfgT : Cfg where
  N := 12
  W := 4
  H := 100
  TRIG_TH := 50
  SCALE_NOM := ⟨1, 16⟩
  SCALE_K := ⟨64, 1⟩
  DECIM_MAX := 8
  NB := 2
  MIN_TH := 2
  LONG_TH := 5
  DUR_CAP := 8
  DBL_WINDOW := 4
  X0 := 0
  Y0 := 0
  FG := 0xFFFF#16
  BG := 0x0000#16
  MODE_BTN := 0
  MODE_RESET := .scope
  PAUSE_BTN := 1
  PAUSE_KIND := .press

/-- Free value: `RAW[i]` after reset (`any_16`, `10_state.md` R50; log 3). -/
opaque resetRaw : Nat → Sample

/-- Free value: `Y[j]` after reset (`any_16`, `10_state.md` R50; log 3). -/
opaque resetY : Nat → Sample

/-- Free value: the calibration reading the host has at startup, none if there is none (`70_reset_and_hazards.md` R292
(1), `44_mode_controller.md` R247; log 21). -/
opaque startupReading : Option (BitVec 16)

/-- Free value: the initial decimation step the host asks for at startup, none if it asks for none (R292 (2); log 21). -/
opaque startupStep : Option (BitVec 16)

/-- Free value: what reading an element that a buffer does not hold would give (log 7). No rule reads one. -/
opaque absentElement : Nat → Sample

end Config
end Sys2Proof
end

