-- ==== Sys2Proof/Syntax.lean ====
section
/-! DEFINITION. The sixteen commands of `30_encoding.md` R95, one constructor a row of `spec/opcode_table.json`, with
the operands of R93: `imm` is 16 bits, `a` is 8 bits. -/

namespace Sys2Proof

/-- A command (R95). -/
inductive Instr where
  /-- NOP, `43_sampler_system.md` R218. -/
  | nop
  /-- PRODUCE, `40_acquisition.md` R123. -/
  | produce
  /-- RENDER, `41_frame_updater.md` R161. -/
  | render
  /-- CLRFRM, `41_frame_updater.md` R162. -/
  | clrfrm
  /-- SETDEC imm: the requested decimation step, `40_acquisition.md` R121. -/
  | setdec (imm : BitVec 16)
  /-- SETREF imm: the reference reading, `40_acquisition.md` R122. -/
  | setref (imm : BitVec 16)
  /-- SSTART, `43_sampler_system.md` R211. -/
  | sstart
  /-- SRESTART, `43_sampler_system.md` R212. -/
  | srestart
  /-- SCLEAR, `43_sampler_system.md` R213. -/
  | sclear
  /-- SPOLL, `43_sampler_system.md` R214. -/
  | spoll
  /-- DBTICK imm: the level bitmap, `42_debouncer.md` R181. -/
  | dbtick (imm : BitVec 16)
  /-- EVRD a: the button id, `42_debouncer.md` R190. -/
  | evrd (a : BitVec 8)
  /-- EVCLR a: the button id, `42_debouncer.md` R191. -/
  | evclr (a : BitVec 8)
  /-- RDREG a: the register address, `43_sampler_system.md` R215. -/
  | rdreg (a : BitVec 8)
  /-- RDCUR imm: the frame index, `43_sampler_system.md` R216. -/
  | rdcur (imm : BitVec 16)
  /-- RDPRV imm: the frame index, `43_sampler_system.md` R217. -/
  | rdprv (imm : BitVec 16)
  deriving DecidableEq, Repr

end Sys2Proof
end

