-- ==== Sys2Proof/WellFormed.lean ====
section
/-! DEFINITION. Which commands are well formed under a configuration: the one check that the widths of the operands
do not make by themselves is that a `DBTICK` names only existing buttons (`30_encoding.md` R94, R97 (c)). Range checks
on button ids, frame indexes and register addresses are NOT well-formedness: the command's own rule makes them (R94). -/

namespace Sys2Proof

/-- `imm[15:NB] = 0`: no level bit of a button that does not exist (R94, last check). -/
abbrev levelsLegal (c : Cfg) (imm : BitVec 16) : Bool := imm >>> c.NB == 0#16

/-- A command the decoder may give under `c`. -/
def Instr.wellFormed (c : Cfg) : Instr → Bool
  | .nop => true
  | .produce => true
  | .render => true
  | .clrfrm => true
  | .setdec _ => true
  | .setref _ => true
  | .sstart => true
  | .srestart => true
  | .sclear => true
  | .spoll => true
  | .dbtick imm => levelsLegal c imm
  | .evrd _ => true
  | .evclr _ => true
  | .rdreg _ => true
  | .rdcur _ => true
  | .rdprv _ => true

end Sys2Proof
end

