-- ==== Sys2Proof/Decode.lean ====
section
/-! DEFINITION. Decoding (`30_encoding.md` R90 to R98): total on all words, rejecting by name, and after it the
encoder, written from the same tables. -/

namespace Sys2Proof

/-- Why a word is no command (R94, R97). Every one of them is answered with ILLEGAL_CMD. -/
inductive DecodeError where
  /-- `op` is not one of the sixteen opcodes (R97 (a)). -/
  | unknownOpcode (op : BitVec 8)
  /-- a field that carries no operand is not zero (R97 (b)). -/
  | nonzeroField
  /-- `DBTICK` with a level bit of a button that does not exist (R97 (c)). -/
  | levelOfAbsentButton
  deriving DecidableEq, Repr

/-- The three formats (R91). -/
inductive Format where
  | Z
  | I
  | A
  deriving DecidableEq, Repr

/-- `op = cmd[31:24]` (R90). -/
def opField (cmd : Word) : BitVec 8 := cmd.extractLsb' 24 8

/-- `a = cmd[23:16]` (R90). -/
def aField (cmd : Word) : BitVec 8 := cmd.extractLsb' 16 8

/-- `imm = cmd[15:0]` (R90). -/
def immField (cmd : Word) : BitVec 16 := cmd.extractLsb' 0 16

/-- The opcode column of R95, read from the number to the row: the format, and the command with its operand taken
from the fields `a` and `imm`. -/
def opcodeRow (op a : BitVec 8) (imm : BitVec 16) : Option (Format × Instr) :=
  match op.toNat with
  | 0x00 => some (.Z, .nop)
  | 0x01 => some (.Z, .produce)
  | 0x02 => some (.Z, .render)
  | 0x03 => some (.Z, .clrfrm)
  | 0x04 => some (.I, .setdec imm)
  | 0x05 => some (.I, .setref imm)
  | 0x08 => some (.Z, .sstart)
  | 0x09 => some (.Z, .srestart)
  | 0x0A => some (.Z, .sclear)
  | 0x0B => some (.Z, .spoll)
  | 0x10 => some (.I, .dbtick imm)
  | 0x11 => some (.A, .evrd a)
  | 0x12 => some (.A, .evclr a)
  | 0x18 => some (.A, .rdreg a)
  | 0x19 => some (.I, .rdcur imm)
  | 0x1A => some (.I, .rdprv imm)
  | _ => none

/-- The fields that carry no operand in format `f` are zero (R91, the middle checks of R94). -/
def unusedFieldsZero (f : Format) (a : BitVec 8) (imm : BitVec 16) : Bool :=
  match f with
  | .Z => a == 0#8 && imm == 0#16
  | .I => a == 0#8
  | .A => imm == 0#16

/-- The checks of R94 that need no configuration: the opcode, then the unused fields. -/
def decode (cmd : Word) : Except DecodeError Instr :=
  match opcodeRow (opField cmd) (aField cmd) (immField cmd) with
  | none => .error (.unknownOpcode (opField cmd))
  | some (f, i) => if unusedFieldsZero f (aField cmd) (immField cmd) then .ok i else .error .nonzeroField

/-- All of R94: `decode`, then the check of the level bitmap against `NB`. -/
def decodeCmd (c : Cfg) (cmd : Word) : Except DecodeError Instr :=
  match decode cmd with
  | .error e => .error e
  | .ok i => if i.wellFormed c then .ok i else .error .levelOfAbsentButton

/-- The decoder on a row of `spec/opcode_table.json`. Every command is one 32-bit word (R90); a row that gives fewer
bits has its high bits zero. The level check of `DBTICK` needs a configuration and is not made here (log 20). -/
def decodeTableWord (nbits w : Nat) : Option Instr :=
  if nbits ≤ 32 then (decode (BitVec.ofNat 32 (w % 2 ^ nbits))).toOption else none

/-! ### The encoder -/

/-- The opcode column of R95, read from the command to the number. -/
def Instr.opcode : Instr → BitVec 8
  | .nop => 0x00#8
  | .produce => 0x01#8
  | .render => 0x02#8
  | .clrfrm => 0x03#8
  | .setdec _ => 0x04#8
  | .setref _ => 0x05#8
  | .sstart => 0x08#8
  | .srestart => 0x09#8
  | .sclear => 0x0A#8
  | .spoll => 0x0B#8
  | .dbtick _ => 0x10#8
  | .evrd _ => 0x11#8
  | .evclr _ => 0x12#8
  | .rdreg _ => 0x18#8
  | .rdcur _ => 0x19#8
  | .rdprv _ => 0x1A#8

/-- The format column of R95. -/
def Instr.format : Instr → Format
  | .nop => .Z
  | .produce => .Z
  | .render => .Z
  | .clrfrm => .Z
  | .setdec _ => .I
  | .setref _ => .I
  | .sstart => .Z
  | .srestart => .Z
  | .sclear => .Z
  | .spoll => .Z
  | .dbtick _ => .I
  | .evrd _ => .A
  | .evclr _ => .A
  | .rdreg _ => .A
  | .rdcur _ => .I
  | .rdprv _ => .I

/-- The field `a` of a command: its operand in format A, zero in the others (R91). -/
def Instr.aOperand : Instr → BitVec 8
  | .nop => 0#8
  | .produce => 0#8
  | .render => 0#8
  | .clrfrm => 0#8
  | .setdec _ => 0#8
  | .setref _ => 0#8
  | .sstart => 0#8
  | .srestart => 0#8
  | .sclear => 0#8
  | .spoll => 0#8
  | .dbtick _ => 0#8
  | .evrd a => a
  | .evclr a => a
  | .rdreg a => a
  | .rdcur _ => 0#8
  | .rdprv _ => 0#8

/-- The field `imm` of a command: its operand in format I, zero in the others (R91). -/
def Instr.immOperand : Instr → BitVec 16
  | .nop => 0#16
  | .produce => 0#16
  | .render => 0#16
  | .clrfrm => 0#16
  | .setdec imm => imm
  | .setref imm => imm
  | .sstart => 0#16
  | .srestart => 0#16
  | .sclear => 0#16
  | .spoll => 0#16
  | .dbtick imm => imm
  | .evrd _ => 0#16
  | .evclr _ => 0#16
  | .rdreg _ => 0#16
  | .rdcur imm => imm
  | .rdprv imm => imm

/-- A word from its three fields (R90). -/
def packWord (op a : BitVec 8) (imm : BitVec 16) : Word := op ++ a ++ imm

/-- The word of a command (R90, R91, R95). -/
def encode (i : Instr) : Word := packWord i.opcode i.aOperand i.immOperand

/-- The mask of a format (R91). -/
def Format.mask : Format → Word
  | .Z => 0xFFFFFFFF#32
  | .I => 0xFFFF0000#32
  | .A => 0xFF00FFFF#32

end Sys2Proof
end

