-- ==== Sys2Proof/Machine/State.lean ====
section
/-! DEFINITION. Everything the spec gives the machine (`10_state.md` R20, R21, R50), the outputs of a run, the
reference host of `44_mode_controller.md`, and the inputs still to come. Plain data throughout. -/

namespace Sys2Proof.Machine

/-- The four element-addressed buffers (`20_memory.md` R60). `RAW` and `Y` have N elements, `CUR` and `PRV` have W. -/
structure Memory where
  RAW : List Sample
  Y : List Sample
  CUR : List Sample
  PRV : List Sample
  deriving DecidableEq, Repr

/-- The names of the four buffers (`00_scope.md` R10). -/
inductive Space where
  | RAW
  | Y
  | CUR
  | PRV
  deriving DecidableEq, Repr

/-- The canonical form: each buffer has exactly its number of elements (R31, R32, R60), so equal memories are equal
lists. -/
abbrev Memory.wf (c : Cfg) (m : Memory) : Prop :=
  m.RAW.length = c.N ∧ m.Y.length = c.N ∧ m.CUR.length = c.W ∧ m.PRV.length = c.W

/-- One button's record (`10_state.md` R28). -/
structure Button where
  DUR : BitVec 16
  CNT : BitVec 2
  WIN : BitVec 16
  SEEN : Bool
  EV : Event
  deriving DecidableEq, Repr, Inhabited

/-- The record after reset: Idle, no event (R50). -/
def Button.reset : Button := ⟨0#16, 0#2, 0#16, false, .none⟩

/-- The six status codes (`60_exceptions.md` R260; codes 6 to 15 are never returned). -/
inductive Status where
  | ok
  | notReady
  | decimClamped
  | refFallback
  | illegalCmd
  | badIndex
  deriving DecidableEq, Repr

/-- A command's response (`30_encoding.md` R92). -/
structure Response where
  status : Status
  data : BitVec 32
  deriving DecidableEq, Repr

/-- One display record `LINE(x1, y1, x2, y2, c)` (`00_scope.md` R14). -/
structure Line where
  x1 : BitVec 16
  y1 : BitVec 16
  x2 : BitVec 16
  y2 : BitVec 16
  c : Colour
  deriving DecidableEq, Repr

/-- What moves the reference host once it has started (`44_mode_controller.md` R241, R245, R246). -/
inductive Stimulus where
  /-- The debounce tick, with the levels of all buttons (R241). -/
  | debounceTick (levels : BitVec 16)
  /-- The render tick (R245). -/
  | renderTick
  /-- The encoder moved: a new requested step (R246). -/
  | encoder (step : BitVec 16)
  deriving DecidableEq, Repr

/-- One thing the reference host has yet to do. Each is at most one command (log 13). -/
inductive HostAction where
  /-- The boot sequence, with the calibration reading and the initial step if there are any (`70_reset_and_hazards.md`
  R292). It stands on the agenda from reset, and nothing puts it there again (R247 "once at startup"; log 21). -/
  | startup (reading step : Option (BitVec 16))
  /-- Decide what a stimulus asks for. -/
  | handle (e : Stimulus)
  /-- Issue a command. -/
  | issue (i : Instr)
  /-- `EVRD b`, and dispatch what it returns (R242). -/
  | poll (b : Nat)
  /-- `PRODUCE`, and `SRESTART` after it if it was carried out (R245). -/
  | produceFrame
  deriving DecidableEq, Repr

/-- The reference host (`44_mode_controller.md` R240). `agenda` is the model's own: what it has decided to do, in
order (log 13). -/
structure ModeController where
  MODE : Mode
  PAUSED : Bool
  agenda : List HostAction
  deriving DecidableEq, Repr

/-- What the outside world does next (log 4). -/
inductive Input where
  /-- A word is put on the command port by some host (`20_memory.md` R72). -/
  | command (w : Word)
  /-- The Sampler completes, having sampled this block (`43_sampler_system.md` R226). -/
  | sampler (block : List Sample)
  /-- Something happens that the reference host has to handle. -/
  | stimulus (e : Stimulus)
  /-- The reference host takes its next action. -/
  | hostTurn
  deriving DecidableEq, Repr

/-- Why a step stops with a fault: never. "A model of the ATE needs no fault state and no halted state"
(`93_implementation_defined.md` section 3; `60_exceptions.md` R270; log 16). Nobody raises one. -/
inductive Fault where
  deriving DecidableEq, Repr

/-- Why a step has no meaning. -/
inductive Refusal where
  /-- Raised by `exec` for an instruction with no meaning yet: safe. No arm raises it. -/
  | notModelled (mnemonic : String)
  /-- Raised by `step` under a configuration that breaks a constraint of R4 or R5: "a CFG that violates a constraint
  is refused" (U8). Safe. No run from a valid configuration meets it (log 2). -/
  | invalidConfiguration
  /-- Raised by PRODUCE when `DECIM = 0`: "must refuse s = 0 and must not give it a meaning" (`40_acquisition.md`
  R135 (k), U5). Safe. `DECIM` is never 0 in a reachable state (log 6). -/
  | decimationStepZero
  /-- Raised by `step` when the input is a Sampler completion whose block is not N samples long, which is no block
  (`43_sampler_system.md` R226). Safe (log 5). -/
  | blockNotOfLengthN
  deriving DecidableEq, Repr

/-- The state of the whole model. -/
structure State where
  /-- The configuration: a parameter (R4), written by nothing (log 1). -/
  cfg : Cfg
  mem : Memory
  DECIM : BitVec 16
  REF : BitVec 16
  RAW_MIN : BitVec 16
  RAW_MAX : BitVec 16
  AMP : BitVec 32
  TRIG : BitVec 16
  DLEN : BitVec 16
  COMPLETE : Bool
  FILLING : Bool
  /-- One record a button, NB of them (R20). -/
  BTN : List Button
  /-- The response port: what the last command completed with (R92; log 8). -/
  response : Option Response
  /-- The display command trace, oldest record first (R14, R77). -/
  trace : List Line
  /-- The reference host: no state of the ATE (R20). -/
  host : ModeController
  /-- The inputs still to come, the next one first (log 4). -/
  inbox : List Input
  deriving DecidableEq, Repr

/-- What a command answers. -/
abbrev Result := Host.Outcome State Fault Refusal

/-- The state after reset under `c`, for a choice `raw`, `y` of the `any_16` values (`10_state.md` R50;
`70_reset_and_hazards.md` R290). The reference host has its startup before it, with the reading and the step that it
will have then (R292; log 21). -/
def State.resetWith (c : Cfg) (raw y : Nat → Sample) (reading step : Option (BitVec 16)) : State where
  cfg := c
  mem :=
    { RAW := (List.range c.N).map raw
      Y := (List.range c.N).map y
      CUR := List.replicate c.W c.BASE
      PRV := List.replicate c.W c.BASE }
  DECIM := 1#16
  REF := 0#16
  RAW_MIN := 0#16
  RAW_MAX := 0#16
  AMP := 0#32
  TRIG := 0#16
  DLEN := 0#16
  COMPLETE := false
  FILLING := false
  BTN := List.replicate c.NB Button.reset
  response := none
  trace := []
  host := { MODE := c.MODE_RESET, PAUSED := false, agenda := [.startup reading step] }
  inbox := []

/-- The machine right after reset, under `CFG_T` (log 1), with free values in `RAW` and `Y` (log 3) and for what the
host has at startup (log 21). -/
def State.reset : State :=
  State.resetWith Config.cfgT Config.resetRaw Config.resetY Config.startupReading Config.startupStep

end Sys2Proof.Machine
end

