-- ==== Sys2Proof/Machine/Ops.lean ====
section
/-! DEFINITION. The operations the commands share: the arithmetic of `00_scope.md` R12, reading and writing elements
of the buffers (R10), a button's record, and how a command completes (R13). There is no exception to take and none to
return from (`60_exceptions.md` R270, R271): `State.raise` is what the spec has in their place. -/

namespace Sys2Proof.Machine

/-! ### Arithmetic (R12) -/

/-- `rnd(p/q)`: the nearest natural, ties up. -/
def rnd (p q : Nat) : Nat := (2 * p + q) / (2 * q)

/-- `ceil_div(a, b)`. -/
def ceilDiv (a b : Nat) : Nat := (a + b - 1) / b

/-- `sat_inc(v, cap)`. -/
def satInc (v cap : Nat) : Nat := min (v + 1) cap

/-- `rnd(n × q)` for a natural `n` and a rational `q`: the product is exact (R12, R127). -/
def rndMul (n : Nat) (q : Ratio) : Nat := rnd (n * q.num) q.den

/-! ### Buffers (R10, `20_memory.md` R60 to R64) -/

/-- The elements of one buffer. -/
def Memory.buffer (m : Memory) : Space → List Sample
  | .RAW => m.RAW
  | .Y => m.Y
  | .CUR => m.CUR
  | .PRV => m.PRV

/-- `MemRead(S, i)`. An element the buffer does not hold has no value: a free value stands for it (log 7). -/
def Memory.read (m : Memory) (S : Space) (i : Nat) : Sample := (m.buffer S).getD i (Config.absentElement i)

/-- The list `l` with its elements `0 .. n-1` replaced by the values of `f`; the others, and the length, stay. -/
def writeFirst (n : Nat) (f : Nat → Sample) (l : List Sample) : List Sample :=
  l.mapIdx fun i v => if i < n then f i else v

/-- `for k = 0 .. n-1: S[k] <- f k`, for values `f` that do not depend on `S` itself. -/
def Memory.fill (m : Memory) (S : Space) (n : Nat) (f : Nat → Sample) : Memory :=
  match S with
  | .RAW => { m with RAW := writeFirst n f m.RAW }
  | .Y => { m with Y := writeFirst n f m.Y }
  | .CUR => { m with CUR := writeFirst n f m.CUR }
  | .PRV => { m with PRV := writeFirst n f m.PRV }

/-- `BTN[b]`. Every rule that reads one has checked `b < NB`; a record the state does not hold reads as the reset
record (log 7). -/
def State.button (s : State) (b : Nat) : Button := s.BTN.getD b Button.reset

/-! ### Completing a command (R13) -/

/-- `return (S, d)`. -/
def State.complete (s : State) (st : Status) (d : BitVec 32) : State := { s with response := some ⟨st, d⟩ }

/-- `return (S, d)`, as what the command answers. -/
def State.respond (s : State) (st : Status) (d : BitVec 32) : Result := .next (s.complete st d)

/-- `raise <STATUS>`: the response is `(STATUS, 0)`, no state is written and nothing is displayed. -/
def State.raise (s : State) (st : Status) : Result := s.respond st 0#32

/-- `emit LINE(...)`: append records to the display command trace (R14). -/
def State.emit (s : State) (ls : List Line) : State := { s with trace := s.trace ++ ls }

end Sys2Proof.Machine
end

