-- ==== Sys2Proof/Machine/Operands.lean ====
section
/-! DEFINITION. Operands (`30_encoding.md` R93: used as they stand) and the range checks on them that a command's own
rule makes (`60_exceptions.md` R265). -/

namespace Sys2Proof.Machine

/-- `zext_32(v)` (`00_scope.md` R11). -/
def zext32 {n : Nat} (v : BitVec n) : BitVec 32 := v.setWidth 32

/-- `imm[b]`: the level of button `b` in a level bitmap, true = asserted (R93). -/
def levelOf (imm : BitVec 16) (b : Nat) : Bool := imm.getLsbD b

/-- The button id of format A is one of an existing button (R265). -/
def buttonInRange (c : Cfg) (a : BitVec 8) : Bool := a.toNat < c.NB

/-- The frame index of format I is inside the frame (R265). -/
def frameIndexInRange (c : Cfg) (k : BitVec 16) : Bool := k.toNat < c.W

/-- The decimation step `SETDEC` stores for an operand: clamped to `1 .. DECIM_MAX` (`40_acquisition.md` R121). -/
def clampStep (c : Cfg) (imm : BitVec 16) : BitVec 16 := BitVec.ofNat 16 (min (max imm.toNat 1) c.DECIM_MAX)

end Sys2Proof.Machine
end

