-- ==== Sys2Proof/Machine/Flags.lean ====
section
/-! DEFINITION. The flags (`10_state.md` R25 to R27), the status codes and the event codes as numbers, and the packed
register fields of the map R35. There are no other condition codes (R27). -/

namespace Sys2Proof.Machine

/-- The 4-bit code of a status (`60_exceptions.md` R260). -/
def Status.code : Status → BitVec 4
  | .ok => 0#4
  | .notReady => 1#4
  | .decimClamped => 2#4
  | .refFallback => 3#4
  | .illegalCmd => 4#4
  | .badIndex => 5#4

/-- The command was carried out (R260; R92: the others have changed no state). -/
def Status.carriedOut : Status → Bool
  | .ok => true
  | .notReady => false
  | .decimClamped => true
  | .refFallback => true
  | .illegalCmd => false
  | .badIndex => false

/-- The 2-bit code of an event (`10_state.md` R28). -/
def eventCode : Event → BitVec 2
  | .none => 0#2
  | .press => 1#2
  | .doublePress => 2#2
  | .longPress => 3#2

/-- The event a 2-bit code stands for (R28). -/
def eventOfCode (v : BitVec 2) : Event :=
  match v.toNat with
  | 0 => .none
  | 1 => .press
  | 2 => .doublePress
  | _ => .longPress

/-- The Sampler is (re)started: `COMPLETE <- 0`, `FILLING <- 1` (`43_sampler_system.md` R211, R212). -/
def State.startSampler (s : State) : State := { s with COMPLETE := false, FILLING := true }

/-- `COMPLETE <- 0` (R213). -/
def State.clearComplete (s : State) : State := { s with COMPLETE := false }

/-- The Sampler has completed: `COMPLETE <- 1`, `FILLING <- 0` (R226). -/
def State.sampled (s : State) : State := { s with COMPLETE := true, FILLING := false }

/-- A flag as a number. -/
def flagBit (b : Bool) : BitVec 1 := BitVec.ofBool b

/-- STATUS: bit 0 `COMPLETE`, bit 1 `FILLING` (R35, R36). -/
def State.statusWord (s : State) : BitVec 32 := zext32 (flagBit s.FILLING ++ flagBit s.COMPLETE)

/-- BTN_FLG: bits 1:0 `CNT`, bit 2 `SEEN`, bit 3 zero, bits 5:4 `EV` (R35). -/
def Button.flagWord (r : Button) : BitVec 32 := zext32 (eventCode r.EV ++ 0#1 ++ flagBit r.SEEN ++ r.CNT)

end Sys2Proof.Machine
end

