-- ==== Sys2Proof/Machine/Acquisition.lean ====
section
/-! DEFINITION. The acquisition commands SETDEC, SETREF and PRODUCE (`40_acquisition.md`). -/

namespace Sys2Proof.Machine

/-- SETDEC (R121). -/
def execSetdec (imm : BitVec 16) (s : State) : Result :=
  let v := clampStep s.cfg imm
  let s' := { s with DECIM := v }
  if v = imm then s'.respond .ok (zext32 v) else s'.respond .decimClamped (zext32 v)

/-- SETREF (R122). -/
def execSetref (imm : BitVec 16) (s : State) : Result :=
  State.respond { s with REF := imm } .ok 0#32

/-! ### The steps of PRODUCE -/

/-- `scale_of(REF)` (R125): the nominal scale for 0, else `SCALE_K / REF`, exactly. -/
def scaleOf (c : Cfg) (ref : BitVec 16) : Ratio :=
  if ref = 0#16 then c.SCALE_NOM else ⟨c.SCALE_K.num, c.SCALE_K.den * ref.toNat⟩

/-- The length of the decimated sequence, `L = ceil_div(N, s)` (R126). -/
def decimatedLength (s : State) : Nat := ceilDiv s.cfg.N s.DECIM.toNat

/-- Element `j` of the decimated sequence, `RAW[j × s]` (R126). -/
def visited (s : State) (j : Nat) : Nat := (s.mem.read .RAW (j * s.DECIM.toNat)).toNat

/-- A raw sample as a vertical offset: round, then clamp to `H`, then invert (R127). -/
def screenOffset (c : Cfg) (scale : Ratio) (r : Nat) : Sample :=
  BitVec.ofNat 16 (c.H - min (rndMul r scale) c.H)

/-- The least of the first `n` values of `f`, starting from 65535 (R128). -/
def lowest (f : Nat → Nat) (n : Nat) : Nat := (List.range n).foldl (fun lo j => min lo (f j)) 65535

/-- The greatest of the first `n` values of `f`, starting from 0 (R128). -/
def highest (f : Nat → Nat) (n : Nat) : Nat := (List.range n).foldl (fun hi j => max hi (f j)) 0

/-- The sequence crosses the threshold downward between `i` and `i + 1` (R129). -/
def isEdge (th : Nat) (y : Nat → Sample) (i : Nat) : Bool := th < (y i).toNat && (y (i + 1)).toNat ≤ th

/-- The trigger search (R129, R130): the first edge among `0 .. L-W-1`, else 0. For `L ≤ W` there is nothing to
search. -/
def triggerIndex (c : Cfg) (y : Nat → Sample) (L : Nat) : Nat :=
  ((List.range (L - c.W)).find? (isEdge c.TRIG_TH y)).getD 0

/-- The frame from trigger `t` on, padded with the baseline (R131). -/
def windowed (c : Cfg) (y : Nat → Sample) (L t k : Nat) : Sample := if t + k < L then y (t + k) else c.BASE

/-- What a PRODUCE that is carried out leaves, before its response (R123). -/
def produced (s : State) : State :=
  let L := decimatedLength s
  let scale := scaleOf s.cfg s.REF
  let lo := lowest (visited s) L
  let hi := highest (visited s) L
  let m := s.mem.fill .Y L fun j => screenOffset s.cfg scale (visited s j)
  let t := triggerIndex s.cfg (m.read .Y) L
  { s with
    mem := m.fill .CUR s.cfg.W (windowed s.cfg (m.read .Y) L t)
    AMP := BitVec.ofNat 32 (rndMul (hi - lo) scale)
    RAW_MIN := BitVec.ofNat 16 lo
    RAW_MAX := BitVec.ofNat 16 hi
    TRIG := BitVec.ofNat 16 t
    DLEN := BitVec.ofNat 16 L }

/-- PRODUCE (R123): the gate of R124, the refusal of a zero step of R135 (k), then the work and the notice of
`60_exceptions.md` R266. -/
def execProduce (s : State) : Result :=
  if s.COMPLETE = false then s.raise .notReady
  else if s.DECIM = 0#16 then .refused .decimationStepZero
  else if s.REF = 0#16 then (produced s).respond .refFallback 0#32
  else (produced s).respond .ok 0#32

end Sys2Proof.Machine
end

