-- ==== Sys2Proof/Machine/Debouncer.lean ====
section
/-! DEFINITION. The debouncer commands DBTICK, EVRD and EVCLR (`42_debouncer.md`). -/

namespace Sys2Proof.Machine

/-- What the release of a press does besides `DUR <- 0` (R182, R183): LongPress, or a counted short press, or nothing
(contact bounce). -/
def Button.release (c : Cfg) (r : Button) : Button :=
  if c.LONG_TH ≤ r.DUR.toNat ∧ r.SEEN = false then { r with EV := .longPress }
  else if c.MIN_TH ≤ r.DUR.toNat then
    { r with
      CNT := BitVec.ofNat 2 (satInc r.CNT.toNat 2)
      WIN := BitVec.ofNat 16 c.DBL_WINDOW
      SEEN := true }
  else r

/-- The level step (R183). A released tick with `DUR > 0` is the transition to released. -/
def Button.levelStep (c : Cfg) (level : Bool) (r : Button) : Button :=
  if level then { r with DUR := BitVec.ofNat 16 (satInc r.DUR.toNat c.DUR_CAP) }
  else if 0 < r.DUR.toNat then { r.release c with DUR := 0#16 }
  else r

/-- What the end of the window emits (R184, R186): the count is compared for equality with 1 and with 2. -/
def Button.finalEvent (r : Button) : Event :=
  if r.CNT = 1#2 then .press else if r.CNT = 2#2 then .doublePress else r.EV

/-- The window step (R184). -/
def Button.windowStep (r : Button) : Button :=
  if 0 < r.WIN.toNat then
    let w := BitVec.ofNat 16 (r.WIN.toNat - 1)
    if w = 0#16 then { r with WIN := w, EV := r.finalEvent, CNT := 0#2, SEEN := false }
    else { r with WIN := w }
  else r

/-- One tick of one button (R182, R185): the level step, then the window step on what it has written. -/
def Button.tick (c : Cfg) (level : Bool) (r : Button) : Button := (r.levelStep c level).windowStep

/-- All buttons `0 .. NB-1` after one tick (R181). -/
def tickAll (c : Cfg) (imm : BitVec 16) (btn : List Button) : List Button :=
  btn.mapIdx fun b r => if b < c.NB then r.tick c (levelOf imm b) else r

/-- DBTICK (R181). The decoder lets no illegal level bitmap through; the check here gives one that did not come from
the decoder the same answer (R97 (c); log 12). -/
def execDbtick (imm : BitVec 16) (s : State) : Result :=
  if levelsLegal s.cfg imm then State.respond { s with BTN := tickAll s.cfg imm s.BTN } .ok 0#32
  else s.raise .illegalCmd

/-- EVRD (R190). -/
def execEvrd (a : BitVec 8) (s : State) : Result :=
  if buttonInRange s.cfg a then s.respond .ok (zext32 (eventCode (s.button a.toNat).EV))
  else s.raise .badIndex

/-- EVCLR (R191). -/
def execEvclr (a : BitVec 8) (s : State) : Result :=
  if buttonInRange s.cfg a then
    State.respond { s with BTN := s.BTN.modify a.toNat fun r => { r with EV := .none } } .ok 0#32
  else s.raise .badIndex

end Sys2Proof.Machine
end

