-- ==== Sys2Proof/Machine/FrameUpdater.lean ====
section
/-! DEFINITION. The frame updater commands RENDER and CLRFRM (`41_frame_updater.md`), and the pixel-level reading of
a display record with the pixels of a line as a parameter (R166). -/

namespace Sys2Proof.Machine

/-- The line between positions `i` and `i + 1` of a frame, in colour `col` (R161, R167). -/
def frameSegment (c : Cfg) (frame : Nat → Sample) (col : Colour) (i : Nat) : Line where
  x1 := BitVec.ofNat 16 (c.X0 + i)
  y1 := BitVec.ofNat 16 (c.Y0 + (frame i).toNat)
  x2 := BitVec.ofNat 16 (c.X0 + i + 1)
  y2 := BitVec.ofNat 16 (c.Y0 + (frame (i + 1)).toNat)
  c := col

/-- The records of RENDER: for each pair left to right, the erase and then the draw (R161, R163). -/
def renderLines (c : Cfg) (m : Memory) : List Line :=
  (List.range (c.W - 1)).flatMap fun i => [frameSegment c (m.read .PRV) c.BG i, frameSegment c (m.read .CUR) c.FG i]

/-- RENDER (R161): the records, then the copy of `CUR` into `PRV` (R165). -/
def execRender (s : State) : Result :=
  let s' := s.emit (renderLines s.cfg s.mem)
  State.respond { s' with mem := s.mem.fill .PRV s.cfg.W (s.mem.read .CUR) } .ok 0#32

/-- CLRFRM (R162): both frames to the baseline, nothing displayed. -/
def execClrfrm (s : State) : Result :=
  let m := s.mem.fill .PRV s.cfg.W fun _ => s.cfg.BASE
  State.respond { s with mem := m.fill .CUR s.cfg.W fun _ => s.cfg.BASE } .ok 0#32

/-! ### Pixels (R166): no part of State, a reading of the trace -/

/-- Which pixels a line covers, by its four coordinates: the parameter `line_pixels` of R166, about which nothing is
assumed. -/
abbrev LinePixels := BitVec 16 → BitVec 16 → BitVec 16 → BitVec 16 → List (Nat × Nat)

/-- What a screen shows at each pixel. -/
abbrev Screen := Nat × Nat → Colour

/-- The pixel belongs to the line of a record. -/
def Line.covers (lp : LinePixels) (l : Line) (p : Nat × Nat) : Bool := (lp l.x1 l.y1 l.x2 l.y2).contains p

/-- A record sets every pixel of its line to its colour and no other (R166). -/
def paintLine (lp : LinePixels) (scr : Screen) (l : Line) : Screen :=
  fun p => if l.covers lp p then l.c else scr p

/-- The screen after a list of records, in order (`20_memory.md` R77). -/
def paint (lp : LinePixels) (ls : List Line) (scr : Screen) : Screen := ls.foldl (paintLine lp) scr

end Sys2Proof.Machine
end

