-- ==== Sys2Proof/Machine/Readback.lean ====
section
/-! DEFINITION. The readback commands RDREG, RDCUR and RDPRV, and NOP (`43_sampler_system.md`). -/

namespace Sys2Proof.Machine

/-- A per-button register of the map: address `base + b` with `b < NB` (`10_state.md` R35, R37). -/
def buttonRegister (s : State) (base a : Nat) (f : Button → BitVec 32) : Option (BitVec 32) :=
  if base ≤ a ∧ a < base + s.cfg.NB then some (f (s.button (a - base))) else none

/-- The register map (R35): the 32-bit value of an implemented address, none for every other (R37). -/
def readRegister (s : State) (a : BitVec 8) : Option (BitVec 32) :=
  match a.toNat with
  | 0x00 => some s.statusWord
  | 0x01 => some (zext32 s.DECIM)
  | 0x02 => some (zext32 s.REF)
  | 0x03 => some (zext32 s.RAW_MIN)
  | 0x04 => some (zext32 s.RAW_MAX)
  | 0x05 => some s.AMP
  | 0x06 => some (zext32 s.TRIG)
  | 0x07 => some (zext32 s.DLEN)
  | n =>
    (buttonRegister s 0x10 n fun r => zext32 r.DUR) <|>
    (buttonRegister s 0x20 n fun r => zext32 r.WIN) <|>
    (buttonRegister s 0x30 n Button.flagWord)

/-- RDREG (R215). -/
def execRdreg (a : BitVec 8) (s : State) : Result :=
  match readRegister s a with
  | some v => s.respond .ok v
  | none => s.raise .badIndex

/-- RDCUR (R216). -/
def execRdcur (k : BitVec 16) (s : State) : Result :=
  if frameIndexInRange s.cfg k then s.respond .ok (zext32 (s.mem.read .CUR k.toNat)) else s.raise .badIndex

/-- RDPRV (R217). -/
def execRdprv (k : BitVec 16) (s : State) : Result :=
  if frameIndexInRange s.cfg k then s.respond .ok (zext32 (s.mem.read .PRV k.toNat)) else s.raise .badIndex

/-- NOP (R218). -/
def execNop (s : State) : Result := s.respond .ok 0#32

end Sys2Proof.Machine
end

