-- ==== Sys2Proof/Machine/Sampler.lean ====
section
/-! DEFINITION. The Sampler handshake commands SSTART, SRESTART, SCLEAR and SPOLL, and the Sampler's own step
(`43_sampler_system.md`). -/

namespace Sys2Proof.Machine

/-- SSTART (R211). -/
def execSstart (s : State) : Result := s.startSampler.respond .ok 0#32

/-- SRESTART (R212): the same effect as SSTART. -/
def execSrestart (s : State) : Result := s.startSampler.respond .ok 0#32

/-- SCLEAR (R213): `FILLING` stays. -/
def execSclear (s : State) : Result := s.clearComplete.respond .ok 0#32

/-- SPOLL (R214). -/
def execSpoll (s : State) : Result := s.respond .ok (zext32 (flagBit s.COMPLETE))

/-- The Sampler's step (R226): enabled exactly when `FILLING = 1`; it writes the whole block and the flags together.
A completion that is not enabled does not happen (R227; log 5). -/
def samplerStep (block : List Sample) (s : State) : Result :=
  if s.FILLING = false then .next s
  else if block.length = s.cfg.N then
    .next { s.sampled with mem := s.mem.fill .RAW s.cfg.N fun i => block.getD i (Config.absentElement i) }
  else .refused .blockNotOfLengthN

end Sys2Proof.Machine
end

