-- ==== Sys2Proof/Machine/Dispatch.lean ====
section
/-! DEFINITION. One arm a command, in the order of `spec/opcode_table.json` (`30_encoding.md` R95). -/

namespace Sys2Proof.Machine

def exec (i : Instr) (s : State) : Host.Outcome State Fault Refusal :=
  match i with
  | .nop => Sys2Proof.Machine.execNop s
  | .produce => Sys2Proof.Machine.execProduce s
  | .render => Sys2Proof.Machine.execRender s
  | .clrfrm => Sys2Proof.Machine.execClrfrm s
  | .setdec imm => Sys2Proof.Machine.execSetdec imm s
  | .setref imm => Sys2Proof.Machine.execSetref imm s
  | .sstart => Sys2Proof.Machine.execSstart s
  | .srestart => Sys2Proof.Machine.execSrestart s
  | .sclear => Sys2Proof.Machine.execSclear s
  | .spoll => Sys2Proof.Machine.execSpoll s
  | .dbtick imm => Sys2Proof.Machine.execDbtick imm s
  | .evrd a => Sys2Proof.Machine.execEvrd a s
  | .evclr a => Sys2Proof.Machine.execEvclr a s
  | .rdreg a => Sys2Proof.Machine.execRdreg a s
  | .rdcur imm => Sys2Proof.Machine.execRdcur imm s
  | .rdprv imm => Sys2Proof.Machine.execRdprv imm s

end Sys2Proof.Machine
end

