-- ==== Sys2Proof/Machine/Port.lean ====
section
/-! DEFINITION. The command port: a word is decoded and executed, or answered with ILLEGAL_CMD (`30_encoding.md` R94,
R97). The machine fetches nothing (`10_state.md` R24): its next input is the head of the inbox (log 4). -/

namespace Sys2Proof.Machine

/-- One word on the command port (R94): the whole rule of the command, or `(ILLEGAL_CMD, 0)` with no effect. -/
def issueWord (w : Word) (s : State) : Result :=
  match decodeCmd s.cfg w with
  | .ok i => exec i s
  | .error _ => s.raise .illegalCmd

/-- The next input, and the state with it taken off the inbox. -/
def takeInput (s : State) : Option (Input × State) :=
  match s.inbox with
  | [] => none
  | x :: rest => some (x, { s with inbox := rest })

/-- The state in which a word is the next thing on the command port. -/
def State.putWord (s : State) (w : Word) : State := { s with inbox := .command w :: s.inbox }

end Sys2Proof.Machine
end

