-- ==== Sys2Proof/Machine/ModeController.lean ====
section
/-! DEFINITION. The reference host (`44_mode_controller.md`; boot: `70_reset_and_hazards.md` R292). It handles a
stimulus by putting actions on its agenda and takes one action a turn, so that a Sampler completion can fall between
any two of its commands (`20_memory.md` R72; log 13). What it draws itself is external (R249). -/

namespace Sys2Proof.Machine

/-- Scope, Generator, Idle, Scope (R243). -/
def nextMode : Mode → Mode
  | .scope => .generator
  | .generator => .idle
  | .idle => .scope

/-- Scope = 0, Generator = 1, Idle = 2 (R240). -/
def modeCode : Mode → Nat
  | .scope => 0
  | .generator => 1
  | .idle => 2

/-- The pseudo-command `SCOPE_ENTER` (`30_encoding.md` R101; the entry action of R243). -/
def scopeEnter : List HostAction := [.issue .clrfrm, .issue .srestart]

/-- `EVCLR b`. Button ids are below 16 (R4). -/
def clearEvent (b : Nat) : HostAction := .issue (.evclr (BitVec.ofNat 8 b))

/-- The boot sequence (`70_reset_and_hazards.md` R292): SETREF if there is a reading, SETDEC if there is a step, and, if
the mode after reset is Scope, CLRFRM and SSTART. -/
def startupCommands (c : Cfg) (reading step : Option (BitVec 16)) : List HostAction :=
  (reading.map fun r => HostAction.issue (.setref r)).toList ++
  (step.map fun d => HostAction.issue (.setdec d)).toList ++
  (if c.MODE_RESET = .scope then [.issue .clrfrm, .issue .sstart] else [])

/-- What a stimulus makes the host do, given its mode when it comes to it (R241, R245, R246). -/
def respondTo (c : Cfg) (h : ModeController) : Stimulus → List HostAction
  | .debounceTick levels => .issue (.dbtick levels) :: (List.range c.NB).map .poll
  | .renderTick => if h.MODE = .scope ∧ h.PAUSED = false then [.produceFrame, .issue .render] else []
  | .encoder step => [.issue (.setdec step)]

/-- Dispatch of the event `ev` of button `b` (R243, R244), followed by its reset (R242). -/
def dispatchEvent (c : Cfg) (h : ModeController) (b : Nat) (ev : Event) : ModeController :=
  if b = c.MODE_BTN ∧ ev = .doublePress then
    { h with
      MODE := nextMode h.MODE
      agenda := (if nextMode h.MODE = .scope then scopeEnter else []) ++ clearEvent b :: h.agenda }
  else if b = c.PAUSE_BTN ∧ ev = c.PAUSE_KIND ∧ h.MODE = .scope then
    { h with PAUSED := !h.PAUSED, agenda := clearEvent b :: h.agenda }
  else { h with agenda := clearEvent b :: h.agenda }

/-- What the host does with the data of `EVRD b` (R242): nothing for 0, else dispatch. -/
def afterPoll (b : Nat) (s : State) : State :=
  match s.response with
  | some ⟨.ok, d⟩ =>
    if d = 0#32 then s else { s with host := dispatchEvent s.cfg s.host b (eventOfCode (d.setWidth 2)) }
  | _ => s

/-- What the host does with the status of PRODUCE (R245): after OK or REF_FALLBACK, `SRESTART`. -/
def afterProduce (s : State) : State :=
  match s.response with
  | some ⟨.ok, _⟩ => { s with host := { s.host with agenda := .issue .srestart :: s.host.agenda } }
  | some ⟨.refFallback, _⟩ => { s with host := { s.host with agenda := .issue .srestart :: s.host.agenda } }
  | _ => s

/-- Do `f` to the state a command answers, if it answers one. -/
def andThen (r : Result) (f : State → State) : Result :=
  match r with
  | .next t => .next (f t)
  | .fault e => .fault e
  | .refused e => .refused e

/-- One action of the host, taken off its agenda: at most one command. -/
def hostAction (a : HostAction) (s : State) : Result :=
  match a with
  | .startup reading step =>
    .next { s with host := { s.host with agenda := startupCommands s.cfg reading step ++ s.host.agenda } }
  | .handle e => .next { s with host := { s.host with agenda := respondTo s.cfg s.host e ++ s.host.agenda } }
  | .issue i => issueWord (encode i) s
  | .poll b => andThen (issueWord (encode (.evrd (BitVec.ofNat 8 b))) s) (afterPoll b)
  | .produceFrame => andThen (issueWord (encode .produce) s) afterProduce

/-- The host's turn: its next action, or nothing. -/
def hostTurn (s : State) : Result :=
  match s.host.agenda with
  | [] => .next s
  | a :: rest => hostAction a { s with host := { s.host with agenda := rest } }

/-- A stimulus reaches the host, which will come to it after what it is already doing, its startup
first of all (R241: one thread of control; R292; log 21). -/
def stimulate (e : Stimulus) (s : State) : State :=
  { s with host := { s.host with agenda := s.host.agenda ++ [.handle e] } }

/-- What one input does (`10_state.md` R24, `20_memory.md` R72). -/
def deliver (x : Input) (s : State) : Result :=
  match x with
  | .command w => issueWord w s
  | .sampler block => samplerStep block s
  | .stimulus e => .next (stimulate e s)
  | .hostTurn => hostTurn s

/-- One step: nothing for a configuration the rules say nothing of (U8; log 2), else the next input. With no input
there is nothing to do and the state stays as it is (log 4). -/
def oneStep (s : State) : Result :=
  if s.cfg.Valid then
    match takeInput s with
    | none => .next s
    | some (x, s') => deliver x s'
  else .refused .invalidConfiguration

end Sys2Proof.Machine
end

