-- ==== Sys2Proof/Machine/Step.lean ====
section
/-! DEFINITION. The step function, and where a command word is put for the next step to run it (log 18). -/

namespace Sys2Proof.Machine

/-- One step of the machine: one whole command, or one Sampler step, or one move of the reference host that issues no
command (`10_state.md` R24, `20_memory.md` R72). -/
def step (s : State) : Host.Outcome State Fault Refusal := oneStep s

/-- `s` with a word of `nbits` bits next on the command port (log 18). -/
def State.withFetchWord (s : State) (nbits w : Nat) : State := s.putWord (BitVec.ofNat 32 (w % 2 ^ nbits))

end Sys2Proof.Machine
end

