-- ==== Sys2Proof/Safety.lean ====
section
/-! DEFINITION. What holds of every reachable state (`10_state.md` R21, R26, R30, R31; `30_encoding.md` R92), what an
input has to be, runs of commands, and the exact rational reading of the scale, in the terms the claims use. -/

/-- A fraction as a rational (`00_scope.md` R12). -/
def Sys2Proof.Ratio.toRat (q : Sys2Proof.Ratio) : ℚ := (q.num : ℚ) / (q.den : ℚ)

namespace Sys2Proof.Machine

/-- The invariant of a button's record (R30, and the ranges of R21). -/
structure Button.Ok (c : Cfg) (r : Button) : Prop where
  dur : r.DUR.toNat ≤ c.DUR_CAP
  cnt : r.CNT.toNat ≤ 2
  win : r.WIN.toNat ≤ c.DBL_WINDOW
  armed : 0 < r.WIN.toNat ↔ r.SEEN = true
  counted : r.SEEN = true ↔ 1 ≤ r.CNT.toNat

/-- A button that is Idle and has no event to be read (R29, and `EV = 0`). -/
def Button.IdleNoEvent (r : Button) : Prop := r = Button.reset

/-- The startup is the first thing on the host's agenda or it is over: no agenda holds one behind another action, so
nothing is issued before it and none follows it (`70_reset_and_hazards.md` R292, `44_mode_controller.md` R247); while it
is still to come the host is as reset has left it (R240). -/
structure ModeController.Ok (c : Cfg) (h : ModeController) : Prop where
  once : ∀ r d, HostAction.startup r d ∉ h.agenda.tail
  fresh : ∀ r d, h.agenda.head? = some (.startup r d) → h.MODE = c.MODE_RESET ∧ h.PAUSED = false

/-- What every reachable state meets. -/
structure State.Inv (s : State) : Prop where
  /-- R4. -/
  cfg : s.cfg.Valid
  /-- Every buffer keeps its length (R31, R32). -/
  mem : s.mem.wf s.cfg
  /-- Every element of `CUR` is in `[0, H]` (R31). -/
  cur : ∀ v ∈ s.mem.CUR, v.toNat ≤ s.cfg.H
  /-- Every element of `PRV` is in `[0, H]` (R31). -/
  prv : ∀ v ∈ s.mem.PRV, v.toNat ≤ s.cfg.H
  /-- `DECIM` is never 0 (R23). -/
  decim_pos : 1 ≤ s.DECIM.toNat
  decim_max : s.DECIM.toNat ≤ s.cfg.DECIM_MAX
  /-- `COMPLETE` and `FILLING` are never both 1 (R26). -/
  flags : ¬ (s.COMPLETE = true ∧ s.FILLING = true)
  /-- One record a button (R20). -/
  buttons : s.BTN.length = s.cfg.NB
  button : ∀ r ∈ s.BTN, r.Ok s.cfg
  /-- The ranges of the result registers (R21). -/
  dlen : s.DLEN.toNat ≤ s.cfg.N
  trig : s.TRIG.toNat ≤ s.DLEN.toNat - s.cfg.W - 1
  extremes : s.RAW_MIN.toNat ≤ s.RAW_MAX.toNat
  /-- A response of a command that was not carried out has data 0 (R92). -/
  response : ∀ x, s.response = some x → x.status.carriedOut = false → x.data = 0#32
  /-- The reference host starts up first and once (R292). -/
  host : s.host.Ok s.cfg

/-- A Sampler completion brings a block of N samples (R226). -/
def Input.Ok (c : Cfg) : Input → Prop
  | .command _ => True
  | .sampler block => block.length = c.N
  | .stimulus _ => True
  | .hostTurn => True

/-- Every input still to come is one (R226). -/
def State.InputsOk (s : State) : Prop := ∀ x ∈ s.inbox, x.Ok s.cfg

/-- Commands issued one after another, stopping at a command that gives no next state. -/
def runCommands : List Instr → State → Result
  | [], s => .next s
  | i :: rest, s =>
    match exec i s with
    | .next t => runCommands rest t
    | .fault e => .fault e
    | .refused e => .refused e

/-- The scale as the exact rational of `40_acquisition.md` R125. -/
def scaleRat (c : Cfg) (ref : BitVec 16) : ℚ :=
  if ref = 0#16 then c.SCALE_NOM.toRat else c.SCALE_K.toRat / (ref.toNat : ℚ)

/-- Rounding to the nearest natural, ties up, of a rational that is not negative (`00_scope.md` R12). -/
def roundHalfUp (x : ℚ) : Nat := ⌊x + 1 / 2⌋₊

end Sys2Proof.Machine
end

