-- ==== Sys2Proof/Certificates/Slice0/Obligations.lean ====
section
/-! DEFINITION. The statements for the provers. Each docstring names the rules of `spec/` it formalises. A configuration
is a field of the state, so a statement about every state is one about every configuration that its hypotheses allow. -/

open Sys2Proof Sys2Proof.Machine

/-! ### Encoding and decoding (`30_encoding.md`) -/

/-- R95, and the decode vectors of `95_test_vectors.md` 2.1 and 2.3: a word of each family decodes to its command, and
the all-ones word to none (R98). -/
def Obligations.DecodeOfSampleWords : Prop :=
  decode 0x00000000#32 = .ok .nop ∧
  decode 0x01000000#32 = .ok .produce ∧
  decode 0x02000000#32 = .ok .render ∧
  decode 0x04000003#32 = .ok (.setdec 3#16) ∧
  decode 0x05000400#32 = .ok (.setref 1024#16) ∧
  decode 0x0B000000#32 = .ok .spoll ∧
  decode 0x10000003#32 = .ok (.dbtick 3#16) ∧
  decode 0x11010000#32 = .ok (.evrd 1#8) ∧
  decode 0x18050000#32 = .ok (.rdreg 5#8) ∧
  decode 0x1A00FFFF#32 = .ok (.rdprv 65535#16) ∧
  decode 0xFFFFFFFF#32 = .error (.unknownOpcode 0xFF#8) ∧
  decode 0x04010003#32 = .error .nonzeroField

/-- R90, R91, R94, R95: every command, with every value of its operand, decodes from its own word. -/
def Obligations.DecodeOfEncodeIsIdentity : Prop :=
  ∀ (c : Cfg) (i : Instr), i.wellFormed c = true → decodeCmd c (encode i) = .ok i

/-- R90, R91, R94: a word decodes to at most the command whose word it is, and that command is well formed. -/
def Obligations.EncodeOfDecodeIsIdentity : Prop :=
  ∀ (c : Cfg) (w : Word) (i : Instr), decodeCmd c w = .ok i → encode i = w ∧ i.wellFormed c = true

/-- R94, with the opcodes of R95 and the formats of R91: the words that are commands, in terms of the numbers in the
bit fields of R90; every other word is refused. -/
def Obligations.LegalWordsAreExactlyThese : Prop :=
  ∀ (c : Cfg) (w : Word),
    let op := w.toNat / 2 ^ 24
    let a := w.toNat / 2 ^ 16 % 2 ^ 8
    let imm := w.toNat % 2 ^ 16
    (∃ i, decodeCmd c w = .ok i) ↔
      (op ∈ [0x00, 0x01, 0x02, 0x03, 0x08, 0x09, 0x0A, 0x0B] ∧ a = 0 ∧ imm = 0) ∨
      (op ∈ [0x04, 0x05, 0x19, 0x1A] ∧ a = 0) ∨
      (op = 0x10 ∧ a = 0 ∧ imm < 2 ^ c.NB) ∨
      (op ∈ [0x11, 0x12, 0x18] ∧ imm = 0)

/-- R95 with the masks of R91: a word selects a row of the opcode table, `cmd & mask = match`, exactly when the checks
of the decoder that need no configuration give a command of that row. So no word selects two rows. The level check of
R94 is not among those checks (log 20): a DBTICK word with a level bit of a button that does not exist selects its row
and is no command. -/
def Obligations.WordSelectsItsRowOnly : Prop :=
  ∀ (w : Word) (i : Instr),
    w &&& i.format.mask = packWord i.opcode 0#8 0#16 ↔ ∃ j, decode w = .ok j ∧ j.opcode = i.opcode

/-! ### The step (`10_state.md` R24, `20_memory.md` R72) -/

/-- R24, R94: a word on the command port that decodes runs that command, whole, and nothing else happens in the step
but that the word is taken. -/
def Obligations.StepRunsTheDecodedCommand : Prop :=
  ∀ (s : State) (w : Word) (rest : List Input) (i : Instr),
    s.cfg.Valid → s.inbox = .command w :: rest → decodeCmd s.cfg w = .ok i →
    step s = exec i { s with inbox := rest }

/-- R97, R94: a word that decodes to no command is answered `(ILLEGAL_CMD, 0)`; no state is changed and nothing is
emitted. -/
def Obligations.IllegalWordIsAnsweredAndChangesNothing : Prop :=
  ∀ (s : State) (w : Word) (rest : List Input),
    s.cfg.Valid → s.inbox = .command w :: rest → (∀ i, decodeCmd s.cfg w ≠ .ok i) →
    step s = .next { s with inbox := rest, response := some ⟨.illegalCmd, 0#32⟩ }

/-- R226: the Sampler step, enabled, writes the whole block and both flags, and nothing else. -/
def Obligations.SamplerStepWritesTheBlock : Prop :=
  ∀ (s : State) (block : List Sample) (rest : List Input),
    s.cfg.Valid → s.mem.wf s.cfg → s.inbox = .sampler block :: rest → block.length = s.cfg.N → s.FILLING = true →
    step s = .next { s with inbox := rest, mem := { s.mem with RAW := block }, COMPLETE := true, FILLING := false }

/-- R226 enables the Sampler step only while `FILLING = 1`. That a completion which comes while `FILLING = 0` is dropped,
and the step answers a next state, is the model's choice (log 5). -/
def Obligations.SamplerStepIsNotEnabledWhileIdle : Prop :=
  ∀ (s : State) (block : List Sample) (rest : List Input),
    s.cfg.Valid → s.inbox = .sampler block :: rest → s.FILLING = false → step s = .next { s with inbox := rest }

/-- The model's choice (log 4), resting on R291 ("the ATE executes nothing by itself after reset"): with no input
there is nothing to do. -/
def Obligations.NothingHappensWithoutInput : Prop :=
  ∀ s : State, s.cfg.Valid → s.inbox = [] → step s = .next s

/-- The refusals of the model: `93_implementation_defined.md` U8 (log 2), and a Sampler completion that brings no
block of N samples (log 5). -/
def Obligations.StepRefusesWhatIsNoMachineOrNoBlock : Prop :=
  (∀ s : State, ¬ s.cfg.Valid → step s = .refused .invalidConfiguration) ∧
  ∀ (s : State) (block : List Sample) (rest : List Input),
    s.cfg.Valid → s.inbox = .sampler block :: rest → s.FILLING = true → block.length ≠ s.cfg.N →
    step s = .refused .blockNotOfLengthN

/-! ### Reset and invariants -/

/-- R50: every value the rule gives, for every configuration and every choice of the `any_16` values. -/
def Obligations.ResetLeavesTheseValues : Prop :=
  ∀ (c : Cfg) (raw y : Nat → Sample) (reading step : Option (BitVec 16)),
    let s := State.resetWith c raw y reading step
    s.COMPLETE = false ∧ s.FILLING = false ∧ s.DECIM.toNat = 1 ∧ s.REF.toNat = 0 ∧
    s.RAW_MIN.toNat = 0 ∧ s.RAW_MAX.toNat = 0 ∧ s.AMP.toNat = 0 ∧ s.TRIG.toNat = 0 ∧ s.DLEN.toNat = 0 ∧
    (∀ k, k < c.W → s.mem.read .CUR k = c.BASE ∧ s.mem.read .PRV k = c.BASE) ∧
    (∀ b, b < c.NB → s.button b = ⟨0#16, 0#2, 0#16, false, .none⟩) ∧
    ∀ i, i < c.N → s.mem.read .RAW i = raw i ∧ s.mem.read .Y i = y i

/-- R50, R290, R240: the state after reset meets the invariant, under every valid configuration and for every choice of
the `any_16` values, with the host's mode and flag as R240 says. That the host's startup stands on its agenda then is the
model's choice (log 21), and so is that `State.reset` is this state for `CFG_T` and opaque values (logs 1, 3, 21). -/
def Obligations.ResetMeetsTheInvariant : Prop :=
  (∀ (c : Cfg) (raw y : Nat → Sample) (reading step : Option (BitVec 16)), c.Valid →
    let s := State.resetWith c raw y reading step
    s.Inv ∧ s.host.MODE = c.MODE_RESET ∧ s.host.PAUSED = false ∧ s.host.agenda = [.startup reading step]) ∧
  State.reset =
    State.resetWith Config.cfgT Config.resetRaw Config.resetY Config.startupReading Config.startupStep

/-- R21, R23, R26, R30, R31, R92, and R292 with R247 (the host's startup is first and once): every step keeps the
invariant. -/
def Obligations.EveryStepKeepsTheInvariant : Prop :=
  ∀ s t : State, s.Inv → step s = .next t → t.Inv

/-- R271 ("The ATE never stalls and never hangs"; `93_implementation_defined.md` section 3): from a state that meets
the invariant, with inputs that are inputs, every step gives a next state of the same kind. -/
def Obligations.NoReachableStateIsStuck : Prop :=
  ∀ s : State, s.Inv → s.InputsOk → ∃ t, step s = .next t ∧ t.Inv ∧ t.InputsOk

/-- R13, R271: every command completes, with a response, in every state that meets the invariant. -/
def Obligations.EveryCommandCompletesWithAResponse : Prop :=
  ∀ (s : State) (i : Instr), s.Inv → ∃ t r, exec i s = .next t ∧ t.response = some r

/-- R92 (its last sentence), R13: a command that completes NOT_READY, ILLEGAL_CMD or BAD_INDEX has changed nothing and
returns 0. -/
def Obligations.NoOpStatusChangesNothing : Prop :=
  ∀ (s t : State) (i : Instr) (x : Response),
    exec i s = .next t → t.response = some x → x.status ∈ [Status.notReady, .illegalCmd, .badIndex] →
    x.data = 0#32 ∧ t = { s with response := some x }

/-- R260: the codes of the table, which command each of them comes from, and that codes 6 to 15 are never returned. -/
def Obligations.StatusesRaisedByEachCommand : Prop :=
  ∀ (s t : State) (i : Instr) (x : Response), exec i s = .next t → t.response = some x →
    x.status.code.toNat ≤ 5 ∧
    (x.status.code.toNat = 1 → i = .produce ∧ s.COMPLETE = false) ∧
    (x.status.code.toNat = 2 → ∃ imm, i = .setdec imm) ∧
    (x.status.code.toNat = 3 → i = .produce ∧ s.REF.toNat = 0) ∧
    (x.status.code.toNat = 4 → i.wellFormed s.cfg = false) ∧
    (x.status.code.toNat = 5 →
      (∃ a, i = .evrd a ∨ i = .evclr a ∨ i = .rdreg a) ∨ ∃ k, i = .rdcur k ∨ i = .rdprv k)

/-- R21 (the column "written by"), R22, R60: which commands can change what. No command writes `RAW`. -/
def Obligations.EachRegisterHasItsOwnWriters : Prop :=
  ∀ (s t : State) (i : Instr), exec i s = .next t →
    t.mem.RAW = s.mem.RAW ∧
    (t.mem.Y ≠ s.mem.Y → i = .produce) ∧
    (t.mem.CUR ≠ s.mem.CUR → i = .produce ∨ i = .clrfrm) ∧
    (t.mem.PRV ≠ s.mem.PRV → i = .render ∨ i = .clrfrm) ∧
    (t.DECIM ≠ s.DECIM → ∃ imm, i = .setdec imm) ∧
    (t.REF ≠ s.REF → ∃ imm, i = .setref imm) ∧
    (t.RAW_MIN ≠ s.RAW_MIN ∨ t.RAW_MAX ≠ s.RAW_MAX ∨ t.AMP ≠ s.AMP ∨ t.TRIG ≠ s.TRIG ∨ t.DLEN ≠ s.DLEN →
      i = .produce) ∧
    (t.COMPLETE ≠ s.COMPLETE → i = .sstart ∨ i = .srestart ∨ i = .sclear) ∧
    (t.FILLING ≠ s.FILLING → i = .sstart ∨ i = .srestart) ∧
    (t.BTN ≠ s.BTN → (∃ imm, i = .dbtick imm) ∨ ∃ a, i = .evclr a) ∧
    (t.trace ≠ s.trace → i = .render) ∧
    t.cfg = s.cfg ∧ t.host = s.host ∧ t.inbox = s.inbox

/-- R25, R67: over every step of the machine, `COMPLETE` is set only by the Sampler's step, and `RAW` changes only in
that step, which ends with `COMPLETE = 1`. -/
def Obligations.OnlyTheSamplerSetsCompleteAndWritesRaw : Prop :=
  ∀ s t : State, step s = .next t →
    (s.COMPLETE = false → t.COMPLETE = true → s.FILLING = true ∧ ∃ block rest, s.inbox = .sampler block :: rest) ∧
    (t.mem.RAW ≠ s.mem.RAW →
      s.FILLING = true ∧ t.COMPLETE = true ∧ t.FILLING = false ∧ ∃ block rest, s.inbox = .sampler block :: rest)

/-- R77, and R4 (the configuration is a parameter): the trace only grows, and no step changes the configuration. -/
def Obligations.TraceOnlyGrowsAndConfigurationIsFixed : Prop :=
  ∀ s t : State, step s = .next t → (∃ ls, t.trace = s.trace ++ ls) ∧ t.cfg = s.cfg

/-! ### Acquisition (`40_acquisition.md`) -/

/-- R12: `rnd(p/q)` is the nearest natural with ties up, as an exact rational, so it does not depend on how the
rational is written. -/
def Obligations.RoundingIsToNearestTiesUp : Prop :=
  ∀ p q : Nat, 0 < q → rnd p q = roundHalfUp ((p : ℚ) / (q : ℚ))

/-- R121: the step stored is the operand clamped to `1 .. DECIM_MAX`; the status says whether it was clamped; the data
is the value stored; only `DECIM` is written. -/
def Obligations.SetdecClampsIntoRange : Prop :=
  ∀ (s : State) (imm : BitVec 16), s.cfg.Valid →
    ∃ v : BitVec 16, v.toNat = min (max imm.toNat 1) s.cfg.DECIM_MAX ∧
      exec (.setdec imm) s = .next { s with
        DECIM := v
        response := some ⟨if 1 ≤ imm.toNat ∧ imm.toNat ≤ s.cfg.DECIM_MAX then .ok else .decimClamped, v.setWidth 32⟩ }

/-- R122: the reference is stored as given; only `REF` is written. -/
def Obligations.SetrefStoresTheReading : Prop :=
  ∀ (s : State) (imm : BitVec 16),
    exec (.setref imm) s = .next { s with REF := imm, response := some ⟨.ok, 0#32⟩ }

/-- R124, R266: without a completed block PRODUCE answers NOT_READY and changes nothing, also when `REF = 0`. -/
def Obligations.ProduceIsGatedOnComplete : Prop :=
  ∀ s : State, s.COMPLETE = false → exec .produce s = .next { s with response := some ⟨.notReady, 0#32⟩ }

/-- R135 (k), U5: a step of 0 has no meaning. No state that meets the invariant has one. -/
def Obligations.ProduceRefusesStepZero : Prop :=
  ∀ s : State, s.COMPLETE = true → s.DECIM = 0#16 → exec .produce s = .refused .decimationStepZero

/-- R123, R126, R133: with a completed block PRODUCE is carried out, its status says whether the nominal scale was
used, `DLEN` is the decimated length, and its frame: it writes `Y[0 .. DLEN-1]`, `CUR` and the result registers, and
nothing else. -/
def Obligations.ProduceCompletesAndItsFrame : Prop :=
  ∀ s : State, s.Inv → s.COMPLETE = true →
    ∃ t, exec .produce s = .next t ∧
      t = { s with
        mem := { s.mem with Y := t.mem.Y, CUR := t.mem.CUR }
        RAW_MIN := t.RAW_MIN, RAW_MAX := t.RAW_MAX, AMP := t.AMP, TRIG := t.TRIG, DLEN := t.DLEN
        response := some ⟨if s.REF = 0#16 then .refFallback else .ok, 0#32⟩ } ∧
      t.DLEN.toNat = (s.cfg.N + s.DECIM.toNat - 1) / s.DECIM.toNat ∧
      1 ≤ t.DLEN.toNat ∧
      ∀ i, t.DLEN.toNat ≤ i → t.mem.read .Y i = s.mem.read .Y i

/-- R127, R126, R125, R12: every visited sample is multiplied by the exact scale, rounded, clamped to `H` and inverted,
in that order. -/
def Obligations.ProduceRescalesEveryVisitedSample : Prop :=
  ∀ s t : State, s.Inv → s.COMPLETE = true → exec .produce s = .next t →
    ∀ j, j < t.DLEN.toNat →
      j * s.DECIM.toNat < s.cfg.N ∧
      (t.mem.read .Y j).toNat =
        s.cfg.H - min (roundHalfUp (((s.mem.read .RAW (j * s.DECIM.toNat)).toNat : ℚ) * scaleRat s.cfg s.REF)) s.cfg.H

/-- R127 (its last sentences): a sample of 0 is at the baseline, and the offset falls as the sample grows. -/
def Obligations.RescalingIsAntitoneFromTheBaseline : Prop :=
  ∀ (c : Cfg) (ref : BitVec 16), c.Valid →
    screenOffset c (scaleOf c ref) 0 = c.BASE ∧
    (∀ r r', r ≤ r' → (screenOffset c (scaleOf c ref) r').toNat ≤ (screenOffset c (scaleOf c ref) r).toNat) ∧
    ∀ r, (screenOffset c (scaleOf c ref) r).toNat ≤ c.H

/-- R128: `RAW_MIN` and `RAW_MAX` are the least and the greatest of the visited samples, and of no others. -/
def Obligations.ProduceTracksRawExtremes : Prop :=
  ∀ s t : State, s.Inv → s.COMPLETE = true → exec .produce s = .next t →
    (∀ j, j < t.DLEN.toNat →
      t.RAW_MIN.toNat ≤ (s.mem.read .RAW (j * s.DECIM.toNat)).toNat ∧
      (s.mem.read .RAW (j * s.DECIM.toNat)).toNat ≤ t.RAW_MAX.toNat) ∧
    (∃ j, j < t.DLEN.toNat ∧ s.mem.read .RAW (j * s.DECIM.toNat) = t.RAW_MIN) ∧
    ∃ j, j < t.DLEN.toNat ∧ s.mem.read .RAW (j * s.DECIM.toNat) = t.RAW_MAX

/-- R132: the amplitude is the true raw spread times the exact scale, rounded, and nothing is cut off in 32 bits. -/
def Obligations.ProduceAmplitudeFromTrueExtremes : Prop :=
  ∀ s t : State, s.Inv → s.COMPLETE = true → exec .produce s = .next t →
    t.AMP.toNat = roundHalfUp (((t.RAW_MAX.toNat - t.RAW_MIN.toNat : Nat) : ℚ) * scaleRat s.cfg s.REF)

/-- R132, property P3: for the same scale a wider raw spread never gives a smaller amplitude. -/
def Obligations.AmplitudeIsMonotoneInTheSpread : Prop :=
  ∀ s s' t t' : State, s.Inv → s'.Inv → s.COMPLETE = true → s'.COMPLETE = true → s'.cfg = s.cfg → s'.REF = s.REF →
    exec .produce s = .next t → exec .produce s' = .next t' →
    t.RAW_MAX.toNat - t.RAW_MIN.toNat ≤ t'.RAW_MAX.toNat - t'.RAW_MIN.toNat → t.AMP.toNat ≤ t'.AMP.toNat

/-- R129, R130: `TRIG` is the first index of the span `0 .. DLEN-W-1` at which the decimated sequence goes from above
the threshold to at or below it; without one, and whenever `DLEN ≤ W`, it is 0. -/
def Obligations.ProduceFindsTheFirstEdge : Prop :=
  ∀ s t : State, s.Inv → s.COMPLETE = true → exec .produce s = .next t →
    let edge : Nat → Prop := fun i =>
      i + s.cfg.W < t.DLEN.toNat ∧ s.cfg.TRIG_TH < (t.mem.read .Y i).toNat ∧
      (t.mem.read .Y (i + 1)).toNat ≤ s.cfg.TRIG_TH
    ((∃ i, edge i) → edge t.TRIG.toNat ∧ ∀ i, i < t.TRIG.toNat → ¬ edge i) ∧
    ((∀ i, ¬ edge i) → t.TRIG.toNat = 0)

/-- R131, R130, property P1: the frame is the decimated sequence from the trigger on; past its end it is the baseline,
which happens exactly when the sequence is shorter than the frame. -/
def Obligations.ProduceWindowsAndPads : Prop :=
  ∀ s t : State, s.Inv → s.COMPLETE = true → exec .produce s = .next t →
    (∀ k, k < s.cfg.W → t.TRIG.toNat + k < t.DLEN.toNat →
      t.mem.read .CUR k = t.mem.read .Y (t.TRIG.toNat + k)) ∧
    (∀ k, k < s.cfg.W → t.DLEN.toNat ≤ t.TRIG.toNat + k →
      (t.mem.read .CUR k).toNat = s.cfg.H ∧ t.DLEN.toNat < s.cfg.W ∧ t.TRIG.toNat = 0) ∧
    t.mem.CUR.length = s.cfg.W

/-- R126: samples at indexes that are not multiples of the step have no influence on any result. -/
def Obligations.UnvisitedSamplesHaveNoInfluence : Prop :=
  ∀ (s t : State) (raw : List Sample), s.Inv → raw.length = s.cfg.N →
    (∀ j, j * s.DECIM.toNat < s.cfg.N → raw[j * s.DECIM.toNat]? = s.mem.RAW[j * s.DECIM.toNat]?) →
    exec .produce s = .next t →
    exec .produce { s with mem := { s.mem with RAW := raw } } = .next { t with mem := { t.mem with RAW := raw } }

/-- R134: a second PRODUCE in the state a first one left gives the same state and the same response. -/
def Obligations.ProduceIsIdempotent : Prop :=
  ∀ s t : State, exec .produce s = .next t → exec .produce t = .next t

/-! ### Frame updater (`41_frame_updater.md`) -/

/-- R161, R163, R165, R167: RENDER emits, for each pair of columns left to right, the erase of the previous frame's
segment and then the draw of the current frame's, `2 × (W - 1)` records in all; then the previous frame is the current
one; nothing else changes, `CUR` included. -/
def Obligations.RenderErasesThenDrawsThenCopies : Prop :=
  ∀ s : State, s.Inv →
    ∃ ls : List Line,
      exec .render s = .next { s with
        trace := s.trace ++ ls
        mem := { s.mem with PRV := s.mem.CUR }
        response := some ⟨.ok, 0#32⟩ } ∧
      ls.length = 2 * (s.cfg.W - 1) ∧
      ∀ i, i + 1 < s.cfg.W → ∃ e d : Line, ls[2 * i]? = some e ∧ ls[2 * i + 1]? = some d ∧
        (e.x1.toNat = s.cfg.X0 + i ∧ e.y1.toNat = s.cfg.Y0 + (s.mem.read .PRV i).toNat ∧
          e.x2.toNat = s.cfg.X0 + i + 1 ∧ e.y2.toNat = s.cfg.Y0 + (s.mem.read .PRV (i + 1)).toNat ∧ e.c = s.cfg.BG) ∧
        (d.x1.toNat = s.cfg.X0 + i ∧ d.y1.toNat = s.cfg.Y0 + (s.mem.read .CUR i).toNat ∧
          d.x2.toNat = s.cfg.X0 + i + 1 ∧ d.y2.toNat = s.cfg.Y0 + (s.mem.read .CUR (i + 1)).toNat ∧ d.c = s.cfg.FG)

/-- R164, R166: when the two frames are equal RENDER leaves every pixel of the trace in the foreground colour and every
other pixel as it was, whatever pixels a line covers. -/
def Obligations.RedrawShowsTheCurrentTrace : Prop :=
  ∀ (s t : State) (lp : LinePixels), s.mem.PRV = s.mem.CUR → exec .render s = .next t →
    ∃ ls, t.trace = s.trace ++ ls ∧
      ∀ (scr : Screen) (p : Nat × Nat),
        paint lp ls scr p = if ls.any (fun l => l.covers lp p) then s.cfg.FG else scr p

/-- R164, R165, property P4 with the frames already equal: once a RENDER has made the frames equal, a later RENDER
after one that redrew them changes no pixel. -/
def Obligations.RepeatedRedrawChangesNoPixel : Prop :=
  ∀ (s t₁ t₂ t₃ : State) (lp : LinePixels), s.Inv →
    exec .render s = .next t₁ → exec .render t₁ = .next t₂ → exec .render t₂ = .next t₃ →
    ∃ ls₁ ls₂ ls₃, t₁.trace = s.trace ++ ls₁ ∧ t₂.trace = t₁.trace ++ ls₂ ∧ t₃.trace = t₂.trace ++ ls₃ ∧
      ∀ scr : Screen, paint lp ls₃ (paint lp ls₂ (paint lp ls₁ scr)) = paint lp ls₂ (paint lp ls₁ scr)

/-- Property P4 read of the FIRST redraw, which the spec's own R168 excludes for some line primitives: the erase of
pair `i+1` may take pixels of the new segment `i`, and the next RENDER puts them back. Expected to fail (log 19). -/
def Obligations.FirstRedrawChangesNoPixel : Prop :=
  ∀ (s t₁ t₂ : State) (lp : LinePixels), s.Inv → exec .render s = .next t₁ → exec .render t₁ = .next t₂ →
    ∃ ls₁ ls₂, t₁.trace = s.trace ++ ls₁ ∧ t₂.trace = t₁.trace ++ ls₂ ∧
      ∀ scr : Screen, paint lp ls₂ (paint lp ls₁ scr) = paint lp ls₁ scr

/-- R162, R7: both frames are the baseline, nothing is displayed, nothing else changes. -/
def Obligations.ClrfrmSetsBothFramesToBaseline : Prop :=
  ∀ s : State, s.mem.wf s.cfg →
    exec .clrfrm s = .next { s with
      mem := { s.mem with
        PRV := List.replicate s.cfg.W (BitVec.ofNat 16 s.cfg.H), CUR := List.replicate s.cfg.W (BitVec.ofNat 16 s.cfg.H) }
      response := some ⟨.ok, 0#32⟩ }

/-! ### Debouncer (`42_debouncer.md`) -/

/-- R181: DBTICK steps every button with its own level and changes nothing but the records. A level bit of a button that
does not exist makes the word ILLEGAL_CMD when it is decoded (R94, R97 (c)); that the meaning itself gives a bitmap that
did not come through the decoder the same answer is the model's choice (log 12). -/
def Obligations.DbtickStepsEveryButton : Prop :=
  ∀ (s : State) (imm : BitVec 16), s.BTN.length = s.cfg.NB →
    (imm.toNat < 2 ^ s.cfg.NB →
      ∃ t, exec (.dbtick imm) s = .next t ∧
        t = { s with BTN := t.BTN, response := some ⟨.ok, 0#32⟩ } ∧ t.BTN.length = s.cfg.NB ∧
        ∀ b, b < s.cfg.NB → t.button b = (s.button b).tick s.cfg (imm.getLsbD b)) ∧
    (2 ^ s.cfg.NB ≤ imm.toNat →
      exec (.dbtick imm) s = .next { s with response := some ⟨.illegalCmd, 0#32⟩ })

/-- R28, R181: what a DBTICK does to one button depends on that button's record and level alone. -/
def Obligations.ButtonsAreIndependent : Prop :=
  ∀ (s s' t t' : State) (imm imm' : BitVec 16) (b : Nat),
    s'.cfg = s.cfg → s.BTN.length = s.cfg.NB → s'.BTN.length = s.cfg.NB → b < s.cfg.NB →
    imm.toNat < 2 ^ s.cfg.NB → imm'.toNat < 2 ^ s.cfg.NB →
    s'.button b = s.button b → imm'.getLsbD b = imm.getLsbD b →
    exec (.dbtick imm) s = .next t → exec (.dbtick imm') s' = .next t' → t'.button b = t.button b

/-- R183, R188 (a) to (c): the tick of a release, by the length of the press. -/
def Obligations.ReleaseTickClassifiesThePress : Prop :=
  ∀ (c : Cfg) (r : Button), c.Valid → r.Ok c → 0 < r.DUR.toNat →
    let r' := r.tick c false
    r'.DUR = 0#16 ∧
    (c.LONG_TH ≤ r.DUR.toNat → r.SEEN = false → r' = { r with DUR := 0#16, EV := .longPress }) ∧
    (c.MIN_TH ≤ r.DUR.toNat → (r.DUR.toNat < c.LONG_TH ∨ r.SEEN = true) → 2 ≤ c.DBL_WINDOW →
      r'.CNT.toNat = min (r.CNT.toNat + 1) 2 ∧ r'.WIN.toNat = c.DBL_WINDOW - 1 ∧ r'.SEEN = true ∧ r'.EV = r.EV) ∧
    (c.MIN_TH ≤ r.DUR.toNat → (r.DUR.toNat < c.LONG_TH ∨ r.SEEN = true) → c.DBL_WINDOW = 1 →
      r'.CNT = 0#2 ∧ r'.WIN = 0#16 ∧ r'.SEEN = false ∧ r'.EV = if r.CNT = 0#2 then .press else .doublePress) ∧
    (r.DUR.toNat < c.MIN_TH → r' = { r.tick c true with DUR := 0#16 })

/-- R183, R184: a tick with the button asserted: the duration counts up to its cap; the window, if armed, counts down
and finalizes at 0, with the count compared for equality. -/
def Obligations.AssertedTickCountsAndRunsTheWindow : Prop :=
  ∀ (c : Cfg) (r : Button), c.Valid → r.Ok c →
    let r' := r.tick c true
    r'.DUR.toNat = min (r.DUR.toNat + 1) c.DUR_CAP ∧
    (r.WIN.toNat = 0 → r' = { r with DUR := r'.DUR }) ∧
    (2 ≤ r.WIN.toNat → r' = { r with DUR := r'.DUR, WIN := r'.WIN } ∧ r'.WIN.toNat = r.WIN.toNat - 1) ∧
    (r.WIN.toNat = 1 →
      r'.WIN = 0#16 ∧ r'.CNT = 0#2 ∧ r'.SEEN = false ∧
      (r.CNT = 1#2 → r'.EV = .press) ∧ (r.CNT = 2#2 → r'.EV = .doublePress))

/-- R183: a released tick of a button that was released before (`DUR = 0`) is a tick of the window alone. -/
def Obligations.IdleReleasedTickRunsTheWindowOnly : Prop :=
  ∀ (c : Cfg) (r : Button), r.DUR = 0#16 → r.tick c false = { r.tick c true with DUR := 0#16 }

/-- R185: at most one event a tick. In the tick in which the level step emits LongPress the window step does nothing at
all; in every other tick, asserted or released, the level step leaves the event as it was, so only the window step can
write it. -/
def Obligations.AtMostOneEventPerTick : Prop :=
  ∀ (c : Cfg) (r : Button), r.Ok c →
    (0 < r.DUR.toNat → c.LONG_TH ≤ r.DUR.toNat → r.SEEN = false →
      (r.levelStep c false).EV = .longPress ∧ (r.levelStep c false).windowStep = r.levelStep c false) ∧
    (r.levelStep c true).EV = r.EV ∧
    (r.DUR.toNat = 0 ∨ r.DUR.toNat < c.LONG_TH ∨ r.SEEN = true → (r.levelStep c false).EV = r.EV)

/-- Property P5 (R192 (1), R188 (c)), over runs of DBTICK commands: a press of exactly `MIN_TH` ticks, then released,
gives Press at the `DBL_WINDOW`-th released tick, counting the release itself, and no other event: before it there is
none, and from it on the record is that of an idle button with Press, so nothing is left from which a second could
come. -/
def Obligations.ShortestPressGivesOnePress : Prop :=
  ∀ (s : State) (b k : Nat) (words : List (BitVec 16)),
    s.Inv → b < s.cfg.NB → (s.button b).IdleNoEvent → s.cfg.MIN_TH < s.cfg.LONG_TH →
    (∀ w ∈ words, w.toNat < 2 ^ s.cfg.NB) →
    words.map (fun w => w.getLsbD b) = List.replicate s.cfg.MIN_TH true ++ List.replicate k false →
    ∃ t, runCommands (words.map Instr.dbtick) s = .next t ∧
      (k < s.cfg.DBL_WINDOW → (t.button b).EV = .none) ∧
      (s.cfg.DBL_WINDOW ≤ k → t.button b = { Button.reset with EV := .press })

/-- Property P6 (R192 (2), R188 (d)): two valid presses whose releases are at most `DBL_WINDOW - 1` ticks apart give
DoublePress, `DBL_WINDOW` released ticks after the second press, and never Press: before it there is no event, and from
it on the button is idle. -/
def Obligations.TwoPressesInTheWindowGiveDoublePress : Prop :=
  ∀ (s : State) (b d₁ g d₂ k : Nat) (words : List (BitVec 16)),
    s.Inv → b < s.cfg.NB → (s.button b).IdleNoEvent →
    s.cfg.MIN_TH ≤ d₁ → d₁ < s.cfg.LONG_TH → 1 ≤ g → s.cfg.MIN_TH ≤ d₂ → g + d₂ ≤ s.cfg.DBL_WINDOW - 1 →
    (∀ w ∈ words, w.toNat < 2 ^ s.cfg.NB) →
    words.map (fun w => w.getLsbD b) =
      List.replicate d₁ true ++ List.replicate g false ++ List.replicate d₂ true ++ List.replicate k false →
    ∃ t, runCommands (words.map Instr.dbtick) s = .next t ∧
      (k < s.cfg.DBL_WINDOW → (t.button b).EV = .none) ∧
      (s.cfg.DBL_WINDOW ≤ k → t.button b = { Button.reset with EV := .doublePress })

/-- Property P7 (R192 (3), R188 (b)): a press of `LONG_TH` ticks or more, however long, gives LongPress at its release,
and the window is never armed: from the release on the button is idle. -/
def Obligations.LongPressIsEmittedAtRelease : Prop :=
  ∀ (s : State) (b d k : Nat) (words : List (BitVec 16)),
    s.Inv → b < s.cfg.NB → (s.button b).IdleNoEvent → s.cfg.LONG_TH ≤ d →
    (∀ w ∈ words, w.toNat < 2 ^ s.cfg.NB) →
    words.map (fun w => w.getLsbD b) = List.replicate d true ++ List.replicate k false →
    ∃ t, runCommands (words.map Instr.dbtick) s = .next t ∧
      (k = 0 → (t.button b).EV = .none ∧ (t.button b).WIN = 0#16) ∧
      (1 ≤ k → t.button b = { Button.reset with EV := .longPress })

/-- R190, R265, R64: EVRD returns the code of the event and changes nothing; a button that does not exist is
BAD_INDEX. -/
def Obligations.EvrdReadsWithoutClearing : Prop :=
  ∀ (s : State) (a : BitVec 8),
    (a.toNat < s.cfg.NB → ∃ d : BitVec 32,
      exec (.evrd a) s = .next { s with response := some ⟨.ok, d⟩ } ∧
      ((s.button a.toNat).EV = .none → d.toNat = 0) ∧ ((s.button a.toNat).EV = .press → d.toNat = 1) ∧
      ((s.button a.toNat).EV = .doublePress → d.toNat = 2) ∧ ((s.button a.toNat).EV = .longPress → d.toNat = 3)) ∧
    (s.cfg.NB ≤ a.toNat → exec (.evrd a) s = .next { s with response := some ⟨.badIndex, 0#32⟩ })

/-- R191, R265: EVCLR sets that button's event to None and touches no other field and no other button; a button that
does not exist is BAD_INDEX. -/
def Obligations.EvclrClearsOneEvent : Prop :=
  ∀ (s : State) (a : BitVec 8), s.BTN.length = s.cfg.NB →
    (a.toNat < s.cfg.NB → ∃ t, exec (.evclr a) s = .next t ∧
      t = { s with BTN := t.BTN, response := some ⟨.ok, 0#32⟩ } ∧ t.BTN.length = s.cfg.NB ∧
      t.button a.toNat = { s.button a.toNat with EV := .none } ∧
      ∀ b, b ≠ a.toNat → t.button b = s.button b) ∧
    (s.cfg.NB ≤ a.toNat → exec (.evclr a) s = .next { s with response := some ⟨.badIndex, 0#32⟩ })

/-! ### Sampler handshake and readback (`43_sampler_system.md`) -/

/-- R211, R212, R213, R214, R218: the operand-less handshake commands and NOP, each with its whole effect. -/
def Obligations.HandshakeCommandsAndNop : Prop :=
  ∀ s : State,
    exec .sstart s = .next { s with COMPLETE := false, FILLING := true, response := some ⟨.ok, 0#32⟩ } ∧
    exec .srestart s = .next { s with COMPLETE := false, FILLING := true, response := some ⟨.ok, 0#32⟩ } ∧
    exec .sclear s = .next { s with COMPLETE := false, response := some ⟨.ok, 0#32⟩ } ∧
    exec .spoll s = .next { s with response := some ⟨.ok, if s.COMPLETE = true then 1#32 else 0#32⟩ } ∧
    exec .nop s = .next { s with response := some ⟨.ok, 0#32⟩ }

/-- R215, R35, R36, R37, R265: what RDREG returns at every address, as a number, and BAD_INDEX at every unimplemented
address. It changes nothing. -/
def Obligations.RdregReadsTheRegisterMap : Prop :=
  ∀ (s : State) (a : BitVec 8), s.cfg.Valid →
    let reads : Nat → Prop := fun v =>
      ∃ d : BitVec 32, d.toNat = v ∧ exec (.rdreg a) s = .next { s with response := some ⟨.ok, d⟩ }
    let ev : Nat → Nat := fun b => match (s.button b).EV with
      | .none => 0
      | .press => 1
      | .doublePress => 2
      | .longPress => 3
    (a = 0x00#8 → reads (s.COMPLETE.toNat + 2 * s.FILLING.toNat)) ∧
    (a = 0x01#8 → reads s.DECIM.toNat) ∧
    (a = 0x02#8 → reads s.REF.toNat) ∧
    (a = 0x03#8 → reads s.RAW_MIN.toNat) ∧
    (a = 0x04#8 → reads s.RAW_MAX.toNat) ∧
    (a = 0x05#8 → reads s.AMP.toNat) ∧
    (a = 0x06#8 → reads s.TRIG.toNat) ∧
    (a = 0x07#8 → reads s.DLEN.toNat) ∧
    (∀ b, b < s.cfg.NB → a.toNat = 0x10 + b → reads (s.button b).DUR.toNat) ∧
    (∀ b, b < s.cfg.NB → a.toNat = 0x20 + b → reads (s.button b).WIN.toNat) ∧
    (∀ b, b < s.cfg.NB → a.toNat = 0x30 + b →
      reads ((s.button b).CNT.toNat + 4 * (s.button b).SEEN.toNat + 16 * ev b)) ∧
    (0x08 ≤ a.toNat → (∀ b, b < s.cfg.NB → a.toNat ≠ 0x10 + b ∧ a.toNat ≠ 0x20 + b ∧ a.toNat ≠ 0x30 + b) →
      exec (.rdreg a) s = .next { s with response := some ⟨.badIndex, 0#32⟩ })

/-- R216, R217, R265: RDCUR and RDPRV return one element, zero-extended, and change nothing; an index outside the frame
is BAD_INDEX. -/
def Obligations.RdcurAndRdprvReadOneElement : Prop :=
  ∀ (s : State) (k : BitVec 16),
    (k.toNat < s.cfg.W →
      (∃ d : BitVec 32, d.toNat = (s.mem.read .CUR k.toNat).toNat ∧
        exec (.rdcur k) s = .next { s with response := some ⟨.ok, d⟩ }) ∧
      ∃ d : BitVec 32, d.toNat = (s.mem.read .PRV k.toNat).toNat ∧
        exec (.rdprv k) s = .next { s with response := some ⟨.ok, d⟩ }) ∧
    (s.cfg.W ≤ k.toNat →
      exec (.rdcur k) s = .next { s with response := some ⟨.badIndex, 0#32⟩ } ∧
      exec (.rdprv k) s = .next { s with response := some ⟨.badIndex, 0#32⟩ })

/-! ### The reference host (`44_mode_controller.md`) -/

/-- R242, R245, R246, R292: what the reference host's turn does with the action at the head of its agenda. A render tick
asks for PRODUCE and RENDER in Scope mode unless paused, else for nothing; a debounce tick for one DBTICK with the
levels and then a poll of every button in ascending order; the encoder for SETDEC; the startup for SETREF if there is a
reading, SETDEC if there is a step, and CLRFRM and SSTART if the mode after reset is Scope, in that order; a command is
executed. None of them but the command changes anything of the ATE. The agenda is the model's own (logs 13, 21). -/
def Obligations.HostTurnDoesTheNextAction : Prop :=
  ∀ (s : State) (rest : List Input) (later : List HostAction), s.cfg.Valid → s.inbox = .hostTurn :: rest →
    let asks : List HostAction → State := fun l =>
      { s with inbox := rest, host := { s.host with agenda := l ++ later } }
    (s.host.agenda = .handle .renderTick :: later →
      step s = .next (asks
        (if s.host.MODE = .scope ∧ s.host.PAUSED = false then [.produceFrame, .issue .render] else []))) ∧
    (∀ levels, s.host.agenda = .handle (.debounceTick levels) :: later →
      step s = .next (asks (.issue (.dbtick levels) :: (List.range s.cfg.NB).map .poll))) ∧
    (∀ d, s.host.agenda = .handle (.encoder d) :: later → step s = .next (asks [.issue (.setdec d)])) ∧
    (∀ reading d, s.host.agenda = .startup reading d :: later →
      step s = .next (asks (
        (match reading with
          | some r => [.issue (.setref r)]
          | none => []) ++
        (match d with
          | some v => [.issue (.setdec v)]
          | none => []) ++
        if s.cfg.MODE_RESET = .scope then [.issue .clrfrm, .issue .sstart] else []))) ∧
    ∀ i, i.wellFormed s.cfg = true → s.host.agenda = .issue i :: later → step s = exec i (asks [])

/-- R245: the host's PRODUCE is followed by SRESTART exactly when it was carried out. -/
def Obligations.HostRestartsAfterConsuming : Prop :=
  ∀ (s : State) (rest : List Input) (later : List HostAction),
    s.Inv → s.inbox = .hostTurn :: rest → s.host.agenda = .produceFrame :: later →
    ∃ t, step s = .next t ∧ t.host.MODE = s.host.MODE ∧ t.host.PAUSED = s.host.PAUSED ∧
      t.host.agenda = (if s.COMPLETE = true then [.issue .srestart] else []) ++ later

/-- R242, R243, R244: the reference host's poll of a button reads its event and dispatches it. Without an event nothing
follows. A DoublePress of the mode-switch button advances the mode cyclically, and on entering Scope mode the host will
clear the frames and restart the Sampler. The pause event in Scope mode toggles `PAUSED`. Every other event changes
neither. After each event the host will clear it. The poll changes nothing of the ATE. The model's choices: `PAUSED` is
kept over a mode switch, the event is cleared after the entry action, and a mode switch goes before a pause by the same
event (log 14); the agenda (log 13). -/
def Obligations.HostPollDispatchesTheEvent : Prop :=
  ∀ (s : State) (rest : List Input) (later : List HostAction) (b : Nat),
    s.Inv → s.inbox = .hostTurn :: rest → s.host.agenda = .poll b :: later → b < s.cfg.NB →
    let ev := (s.button b).EV
    let switch := b = s.cfg.MODE_BTN ∧ ev = .doublePress
    let pause := b = s.cfg.PAUSE_BTN ∧ ev = s.cfg.PAUSE_KIND ∧ s.host.MODE = .scope
    let clear : HostAction := .issue (.evclr (BitVec.ofNat 8 b))
    ∃ t, step s = .next t ∧ t = { s with inbox := rest, response := t.response, host := t.host } ∧
      (ev = .none → t.host = { s.host with agenda := later }) ∧
      (switch →
        modeCode t.host.MODE = (modeCode s.host.MODE + 1) % 3 ∧ t.host.PAUSED = s.host.PAUSED ∧
        t.host.agenda =
          (if t.host.MODE = .scope then [.issue .clrfrm, .issue .srestart] else []) ++ clear :: later) ∧
      (¬ switch → pause → t.host = { s.host with PAUSED := !s.host.PAUSED, agenda := clear :: later }) ∧
      (ev ≠ .none → ¬ switch → ¬ pause → t.host = { s.host with agenda := clear :: later })

/-- R240 ("transitions only via an explicit 'next mode' event"), R243, R244, R247, R292: over every step of the machine
the mode changes only when the host polls the mode-switch button and finds a DoublePress, and `PAUSED` only when it
polls the button of the pause event and finds that event in Scope mode. A startup that is still to come stays the first
thing on the agenda until the host's turn takes it, so the host does nothing before it; one that is not on the agenda is
never put there, so it happens once. The agenda is the model's own (logs 13, 21). -/
def Obligations.HostChangesOnlyByItsRules : Prop :=
  ∀ s t : State, step s = .next t →
    (t.host.MODE ≠ s.host.MODE →
      (s.button s.cfg.MODE_BTN).EV = .doublePress ∧
      ∃ rest later, s.inbox = .hostTurn :: rest ∧ s.host.agenda = .poll s.cfg.MODE_BTN :: later) ∧
    (t.host.PAUSED ≠ s.host.PAUSED →
      (s.button s.cfg.PAUSE_BTN).EV = s.cfg.PAUSE_KIND ∧ s.host.MODE = .scope ∧
      ∃ rest later, s.inbox = .hostTurn :: rest ∧ s.host.agenda = .poll s.cfg.PAUSE_BTN :: later) ∧
    (∀ r d later, s.host.agenda = .startup r d :: later →
      (∃ later', t.host.agenda = .startup r d :: later') ∨ ∃ rest, s.inbox = .hostTurn :: rest) ∧
    ((∀ r d, HostAction.startup r d ∉ s.host.agenda) → ∀ r d, HostAction.startup r d ∉ t.host.agenda)

/-- R248, property P8: `n` mode switches in a row return the mode to where it was exactly when `n` is a multiple of
three. -/
def Obligations.ModeCyclesWithPeriodThree : Prop :=
  ∀ (m : Mode) (n : Nat), nextMode^[n] m = m ↔ 3 ∣ n
end

