-- ==== Sys2Proof/Laws/Ops.lean ====
section
/-! SUPPORT. The laws of the shared operations: reading and filling a buffer, the canonical form, the arithmetic of
`00_scope.md` R12. -/

namespace Sys2Proof.Machine

/-! ### Buffers -/

@[simp] theorem length_writeFirst (n : Nat) (f : Nat → Sample) (l : List Sample) :
    (writeFirst n f l).length = l.length := by simp [writeFirst]

theorem getElem?_writeFirst (n : Nat) (f : Nat → Sample) (l : List Sample) (i : Nat) :
    (writeFirst n f l)[i]? = (l[i]?).map fun v => if i < n then f i else v := by simp [writeFirst]

theorem getD_writeFirst {n i : Nat} {f : Nat → Sample} {l : List Sample} {d : Sample} (hi : i < l.length) :
    (writeFirst n f l).getD i d = if i < n then f i else l.getD i d := by
  rw [List.getD_eq_getElem?_getD, getElem?_writeFirst]
  simp [hi]

theorem getD_writeFirst_of_le {n i : Nat} {f : Nat → Sample} {l : List Sample} {d : Sample} (hi : n ≤ i) :
    (writeFirst n f l).getD i d = l.getD i d := by
  have : ¬ i < n := by omega
  simp [List.getD_eq_getElem?_getD, getElem?_writeFirst, this]

/-- Filling a whole buffer with the elements of a list of its length gives that list. -/
theorem writeFirst_eq_of_length {n : Nat} {l b : List Sample} (hl : l.length = n) (hb : b.length = n)
    (f : Nat → Sample) (hf : ∀ i (h : i < b.length), f i = b[i]) : writeFirst n f l = b := by
  apply List.ext_getElem (by simp [hl, hb])
  intro i h₁ h₂
  have : i < n := by omega
  simp [writeFirst, this, hf i h₂]

theorem writeFirst_const {n : Nat} {l : List Sample} (hl : l.length = n) (v : Sample) :
    writeFirst n (fun _ => v) l = List.replicate n v :=
  writeFirst_eq_of_length hl (by simp) _ (by simp)

/-- Reading an element just filled, and any other. -/
theorem read_fill_same {m : Memory} {S : Space} {n i : Nat} {f : Nat → Sample} (hi : i < (m.buffer S).length) :
    (m.fill S n f).read S i = if i < n then f i else m.read S i := by
  cases S <;> exact getD_writeFirst hi

theorem read_fill_same_of_le {m : Memory} {S : Space} {n i : Nat} {f : Nat → Sample} (hi : n ≤ i) :
    (m.fill S n f).read S i = m.read S i := by
  cases S <;> exact getD_writeFirst_of_le hi

@[simp] theorem buffer_fill_ne {m : Memory} {S T : Space} {n : Nat} {f : Nat → Sample} (h : T ≠ S) :
    (m.fill S n f).buffer T = m.buffer T := by
  cases S <;> cases T <;> first | rfl | exact absurd rfl h

theorem read_fill_ne {m : Memory} {S T : Space} {n i : Nat} {f : Nat → Sample} (h : T ≠ S) :
    (m.fill S n f).read T i = m.read T i := by simp [Memory.read, h]

theorem read_of_lt {m : Memory} {S : Space} {i : Nat} (h : i < (m.buffer S).length) :
    m.read S i = (m.buffer S)[i] := by simp [Memory.read, List.getD_eq_getElem?_getD, h]

/-- Every operation on buffers keeps the canonical form. -/
theorem fill_keeps_wf {c : Cfg} {m : Memory} (h : m.wf c) (S : Space) (n : Nat) (f : Nat → Sample) :
    (m.fill S n f).wf c := by
  cases S <;> simpa [Memory.fill, Memory.wf] using h

/-- Reset memory is in the canonical form. -/
theorem resetWith_mem_wf (c : Cfg) (raw y : Nat → Sample) (reading step : Option (BitVec 16)) :
    (State.resetWith c raw y reading step).mem.wf c := by
  simp [State.resetWith, Memory.wf]

theorem reset_mem_wf : State.reset.mem.wf State.reset.cfg := resetWith_mem_wf _ _ _ _ _

/-- A property of every value written and of every old element is one of every element after. -/
theorem forall_mem_writeFirst {p : Sample → Prop} {n : Nat} {f : Nat → Sample} {l : List Sample}
    (hf : ∀ i, i < l.length → i < n → p (f i)) (hl : ∀ v ∈ l, p v) : ∀ v ∈ writeFirst n f l, p v := by
  intro v hv
  obtain ⟨i, hi, rfl⟩ := List.getElem_of_mem hv
  have hi' : i < l.length := by simpa using hi
  by_cases h : i < n
  · simpa [writeFirst, h] using hf i hi' h
  · simpa [writeFirst, h] using hl _ (List.getElem_mem hi')

/-! ### Arithmetic -/

@[simp] theorem rnd_zero {q : Nat} (h : 0 < q) : rnd 0 q = 0 := by
  simp [rnd, Nat.div_eq_zero_iff]; omega

theorem rnd_mono {p p' q : Nat} (h : p ≤ p') : rnd p q ≤ rnd p' q := Nat.div_le_div_right (by omega)

theorem rnd_le_of_le_mul {p q n : Nat} (hq : 0 < q) (h : p ≤ n * q) : rnd p q ≤ n := by
  have : 2 * p + q < (n + 1) * (2 * q) := by nlinarith
  exact Nat.lt_succ_iff.mp ((Nat.div_lt_iff_lt_mul (by omega)).mpr this)

theorem rndMul_mono {n n' : Nat} {q : Ratio} (h : n ≤ n') : rndMul n q ≤ rndMul n' q :=
  rnd_mono (Nat.mul_le_mul_right _ h)

@[simp] theorem rndMul_zero {q : Ratio} (h : 0 < q.den) : rndMul 0 q = 0 := by simp [rndMul, h]

/-- `rnd(n × q) < 2^32` for a 16-bit `n` and a scale of at most 65536 (R127, R132): nothing is truncated. -/
theorem rndMul_lt {n : Nat} {q : Ratio} (hn : n ≤ 65535) (hq : q.InRange) : rndMul n q < 2 ^ 32 := by
  have h : rndMul n q ≤ 65535 * 65536 :=
    rnd_le_of_le_mul hq.1 (by calc n * q.num ≤ 65535 * (65536 * q.den) := Nat.mul_le_mul hn hq.2.2
                               _ = 65535 * 65536 * q.den := by ring)
  omega

theorem satInc_le (v cap : Nat) : satInc v cap ≤ cap := Nat.min_le_right _ _

theorem ceilDiv_pos {a b : Nat} (ha : 1 ≤ a) (hb : 1 ≤ b) : 1 ≤ ceilDiv a b :=
  (Nat.one_le_div_iff (by omega)).mpr (by omega)

theorem ceilDiv_le {a b : Nat} (hb : 1 ≤ b) : ceilDiv a b ≤ a := by
  unfold ceilDiv
  rcases Nat.eq_zero_or_pos a with rfl | ha
  · rw [Nat.div_eq_of_lt (by omega)]
  · have h : a * 1 ≤ a * b := Nat.mul_le_mul_left a hb
    have h' : a.succ * b = a * b + b := Nat.succ_mul a b
    exact Nat.lt_succ_iff.mp ((Nat.div_lt_iff_lt_mul (by omega)).mpr (by omega))

/-- The indexes visited are those below `a` (R126). -/
theorem mul_lt_of_lt_ceilDiv {a b j : Nat} (hb : 1 ≤ b) (h : j < ceilDiv a b) : j * b < a := by
  have h' : (j + 1) * b ≤ a + b - 1 := (Nat.le_div_iff_mul_le (by omega)).mp h
  have : (j + 1) * b = j * b + b := by ring
  omega

end Sys2Proof.Machine
end

