-- ==== Sys2Proof/Laws/State.lean ====
section
/-! SUPPORT. What each update of the state leaves in each field: one lemma a field an update, true by `rfl`. -/

namespace Sys2Proof.Machine

@[simp] theorem State.complete_cfg (s : State) (st : Status) (d : BitVec 32) : (s.complete st d).cfg = s.cfg := rfl
@[simp] theorem State.complete_mem (s : State) (st : Status) (d : BitVec 32) : (s.complete st d).mem = s.mem := rfl
@[simp] theorem State.complete_DECIM (s : State) (st : Status) (d : BitVec 32) : (s.complete st d).DECIM = s.DECIM := rfl
@[simp] theorem State.complete_REF (s : State) (st : Status) (d : BitVec 32) : (s.complete st d).REF = s.REF := rfl
@[simp] theorem State.complete_RAW_MIN (s : State) (st : Status) (d : BitVec 32) : (s.complete st d).RAW_MIN = s.RAW_MIN := rfl
@[simp] theorem State.complete_RAW_MAX (s : State) (st : Status) (d : BitVec 32) : (s.complete st d).RAW_MAX = s.RAW_MAX := rfl
@[simp] theorem State.complete_AMP (s : State) (st : Status) (d : BitVec 32) : (s.complete st d).AMP = s.AMP := rfl
@[simp] theorem State.complete_TRIG (s : State) (st : Status) (d : BitVec 32) : (s.complete st d).TRIG = s.TRIG := rfl
@[simp] theorem State.complete_DLEN (s : State) (st : Status) (d : BitVec 32) : (s.complete st d).DLEN = s.DLEN := rfl
@[simp] theorem State.complete_COMPLETE (s : State) (st : Status) (d : BitVec 32) : (s.complete st d).COMPLETE = s.COMPLETE := rfl
@[simp] theorem State.complete_FILLING (s : State) (st : Status) (d : BitVec 32) : (s.complete st d).FILLING = s.FILLING := rfl
@[simp] theorem State.complete_BTN (s : State) (st : Status) (d : BitVec 32) : (s.complete st d).BTN = s.BTN := rfl
@[simp] theorem State.complete_response (s : State) (st : Status) (d : BitVec 32) : (s.complete st d).response = some ⟨st, d⟩ := rfl
@[simp] theorem State.complete_trace (s : State) (st : Status) (d : BitVec 32) : (s.complete st d).trace = s.trace := rfl
@[simp] theorem State.complete_host (s : State) (st : Status) (d : BitVec 32) : (s.complete st d).host = s.host := rfl
@[simp] theorem State.complete_inbox (s : State) (st : Status) (d : BitVec 32) : (s.complete st d).inbox = s.inbox := rfl

@[simp] theorem State.emit_cfg (s : State) (ls : List Line) : (s.emit ls).cfg = s.cfg := rfl
@[simp] theorem State.emit_mem (s : State) (ls : List Line) : (s.emit ls).mem = s.mem := rfl
@[simp] theorem State.emit_DECIM (s : State) (ls : List Line) : (s.emit ls).DECIM = s.DECIM := rfl
@[simp] theorem State.emit_REF (s : State) (ls : List Line) : (s.emit ls).REF = s.REF := rfl
@[simp] theorem State.emit_RAW_MIN (s : State) (ls : List Line) : (s.emit ls).RAW_MIN = s.RAW_MIN := rfl
@[simp] theorem State.emit_RAW_MAX (s : State) (ls : List Line) : (s.emit ls).RAW_MAX = s.RAW_MAX := rfl
@[simp] theorem State.emit_AMP (s : State) (ls : List Line) : (s.emit ls).AMP = s.AMP := rfl
@[simp] theorem State.emit_TRIG (s : State) (ls : List Line) : (s.emit ls).TRIG = s.TRIG := rfl
@[simp] theorem State.emit_DLEN (s : State) (ls : List Line) : (s.emit ls).DLEN = s.DLEN := rfl
@[simp] theorem State.emit_COMPLETE (s : State) (ls : List Line) : (s.emit ls).COMPLETE = s.COMPLETE := rfl
@[simp] theorem State.emit_FILLING (s : State) (ls : List Line) : (s.emit ls).FILLING = s.FILLING := rfl
@[simp] theorem State.emit_BTN (s : State) (ls : List Line) : (s.emit ls).BTN = s.BTN := rfl
@[simp] theorem State.emit_response (s : State) (ls : List Line) : (s.emit ls).response = s.response := rfl
@[simp] theorem State.emit_trace (s : State) (ls : List Line) : (s.emit ls).trace = s.trace ++ ls := rfl
@[simp] theorem State.emit_host (s : State) (ls : List Line) : (s.emit ls).host = s.host := rfl
@[simp] theorem State.emit_inbox (s : State) (ls : List Line) : (s.emit ls).inbox = s.inbox := rfl

@[simp] theorem State.startSampler_cfg (s : State) : s.startSampler.cfg = s.cfg := rfl
@[simp] theorem State.startSampler_mem (s : State) : s.startSampler.mem = s.mem := rfl
@[simp] theorem State.startSampler_DECIM (s : State) : s.startSampler.DECIM = s.DECIM := rfl
@[simp] theorem State.startSampler_REF (s : State) : s.startSampler.REF = s.REF := rfl
@[simp] theorem State.startSampler_RAW_MIN (s : State) : s.startSampler.RAW_MIN = s.RAW_MIN := rfl
@[simp] theorem State.startSampler_RAW_MAX (s : State) : s.startSampler.RAW_MAX = s.RAW_MAX := rfl
@[simp] theorem State.startSampler_AMP (s : State) : s.startSampler.AMP = s.AMP := rfl
@[simp] theorem State.startSampler_TRIG (s : State) : s.startSampler.TRIG = s.TRIG := rfl
@[simp] theorem State.startSampler_DLEN (s : State) : s.startSampler.DLEN = s.DLEN := rfl
@[simp] theorem State.startSampler_COMPLETE (s : State) : s.startSampler.COMPLETE = false := rfl
@[simp] theorem State.startSampler_FILLING (s : State) : s.startSampler.FILLING = true := rfl
@[simp] theorem State.startSampler_BTN (s : State) : s.startSampler.BTN = s.BTN := rfl
@[simp] theorem State.startSampler_response (s : State) : s.startSampler.response = s.response := rfl
@[simp] theorem State.startSampler_trace (s : State) : s.startSampler.trace = s.trace := rfl
@[simp] theorem State.startSampler_host (s : State) : s.startSampler.host = s.host := rfl
@[simp] theorem State.startSampler_inbox (s : State) : s.startSampler.inbox = s.inbox := rfl

@[simp] theorem State.clearComplete_cfg (s : State) : s.clearComplete.cfg = s.cfg := rfl
@[simp] theorem State.clearComplete_mem (s : State) : s.clearComplete.mem = s.mem := rfl
@[simp] theorem State.clearComplete_DECIM (s : State) : s.clearComplete.DECIM = s.DECIM := rfl
@[simp] theorem State.clearComplete_REF (s : State) : s.clearComplete.REF = s.REF := rfl
@[simp] theorem State.clearComplete_RAW_MIN (s : State) : s.clearComplete.RAW_MIN = s.RAW_MIN := rfl
@[simp] theorem State.clearComplete_RAW_MAX (s : State) : s.clearComplete.RAW_MAX = s.RAW_MAX := rfl
@[simp] theorem State.clearComplete_AMP (s : State) : s.clearComplete.AMP = s.AMP := rfl
@[simp] theorem State.clearComplete_TRIG (s : State) : s.clearComplete.TRIG = s.TRIG := rfl
@[simp] theorem State.clearComplete_DLEN (s : State) : s.clearComplete.DLEN = s.DLEN := rfl
@[simp] theorem State.clearComplete_COMPLETE (s : State) : s.clearComplete.COMPLETE = false := rfl
@[simp] theorem State.clearComplete_FILLING (s : State) : s.clearComplete.FILLING = s.FILLING := rfl
@[simp] theorem State.clearComplete_BTN (s : State) : s.clearComplete.BTN = s.BTN := rfl
@[simp] theorem State.clearComplete_response (s : State) : s.clearComplete.response = s.response := rfl
@[simp] theorem State.clearComplete_trace (s : State) : s.clearComplete.trace = s.trace := rfl
@[simp] theorem State.clearComplete_host (s : State) : s.clearComplete.host = s.host := rfl
@[simp] theorem State.clearComplete_inbox (s : State) : s.clearComplete.inbox = s.inbox := rfl

@[simp] theorem State.sampled_cfg (s : State) : s.sampled.cfg = s.cfg := rfl
@[simp] theorem State.sampled_mem (s : State) : s.sampled.mem = s.mem := rfl
@[simp] theorem State.sampled_DECIM (s : State) : s.sampled.DECIM = s.DECIM := rfl
@[simp] theorem State.sampled_REF (s : State) : s.sampled.REF = s.REF := rfl
@[simp] theorem State.sampled_RAW_MIN (s : State) : s.sampled.RAW_MIN = s.RAW_MIN := rfl
@[simp] theorem State.sampled_RAW_MAX (s : State) : s.sampled.RAW_MAX = s.RAW_MAX := rfl
@[simp] theorem State.sampled_AMP (s : State) : s.sampled.AMP = s.AMP := rfl
@[simp] theorem State.sampled_TRIG (s : State) : s.sampled.TRIG = s.TRIG := rfl
@[simp] theorem State.sampled_DLEN (s : State) : s.sampled.DLEN = s.DLEN := rfl
@[simp] theorem State.sampled_COMPLETE (s : State) : s.sampled.COMPLETE = true := rfl
@[simp] theorem State.sampled_FILLING (s : State) : s.sampled.FILLING = false := rfl
@[simp] theorem State.sampled_BTN (s : State) : s.sampled.BTN = s.BTN := rfl
@[simp] theorem State.sampled_response (s : State) : s.sampled.response = s.response := rfl
@[simp] theorem State.sampled_trace (s : State) : s.sampled.trace = s.trace := rfl
@[simp] theorem State.sampled_host (s : State) : s.sampled.host = s.host := rfl
@[simp] theorem State.sampled_inbox (s : State) : s.sampled.inbox = s.inbox := rfl

@[simp] theorem State.putWord_cfg (s : State) (w : Word) : (s.putWord w).cfg = s.cfg := rfl
@[simp] theorem State.putWord_mem (s : State) (w : Word) : (s.putWord w).mem = s.mem := rfl
@[simp] theorem State.putWord_DECIM (s : State) (w : Word) : (s.putWord w).DECIM = s.DECIM := rfl
@[simp] theorem State.putWord_REF (s : State) (w : Word) : (s.putWord w).REF = s.REF := rfl
@[simp] theorem State.putWord_RAW_MIN (s : State) (w : Word) : (s.putWord w).RAW_MIN = s.RAW_MIN := rfl
@[simp] theorem State.putWord_RAW_MAX (s : State) (w : Word) : (s.putWord w).RAW_MAX = s.RAW_MAX := rfl
@[simp] theorem State.putWord_AMP (s : State) (w : Word) : (s.putWord w).AMP = s.AMP := rfl
@[simp] theorem State.putWord_TRIG (s : State) (w : Word) : (s.putWord w).TRIG = s.TRIG := rfl
@[simp] theorem State.putWord_DLEN (s : State) (w : Word) : (s.putWord w).DLEN = s.DLEN := rfl
@[simp] theorem State.putWord_COMPLETE (s : State) (w : Word) : (s.putWord w).COMPLETE = s.COMPLETE := rfl
@[simp] theorem State.putWord_FILLING (s : State) (w : Word) : (s.putWord w).FILLING = s.FILLING := rfl
@[simp] theorem State.putWord_BTN (s : State) (w : Word) : (s.putWord w).BTN = s.BTN := rfl
@[simp] theorem State.putWord_response (s : State) (w : Word) : (s.putWord w).response = s.response := rfl
@[simp] theorem State.putWord_trace (s : State) (w : Word) : (s.putWord w).trace = s.trace := rfl
@[simp] theorem State.putWord_host (s : State) (w : Word) : (s.putWord w).host = s.host := rfl
@[simp] theorem State.putWord_inbox (s : State) (w : Word) : (s.putWord w).inbox = .command w :: s.inbox := rfl

@[simp] theorem stimulate_cfg (e : Stimulus) (s : State) : (stimulate e s).cfg = s.cfg := rfl
@[simp] theorem stimulate_mem (e : Stimulus) (s : State) : (stimulate e s).mem = s.mem := rfl
@[simp] theorem stimulate_DECIM (e : Stimulus) (s : State) : (stimulate e s).DECIM = s.DECIM := rfl
@[simp] theorem stimulate_REF (e : Stimulus) (s : State) : (stimulate e s).REF = s.REF := rfl
@[simp] theorem stimulate_RAW_MIN (e : Stimulus) (s : State) : (stimulate e s).RAW_MIN = s.RAW_MIN := rfl
@[simp] theorem stimulate_RAW_MAX (e : Stimulus) (s : State) : (stimulate e s).RAW_MAX = s.RAW_MAX := rfl
@[simp] theorem stimulate_AMP (e : Stimulus) (s : State) : (stimulate e s).AMP = s.AMP := rfl
@[simp] theorem stimulate_TRIG (e : Stimulus) (s : State) : (stimulate e s).TRIG = s.TRIG := rfl
@[simp] theorem stimulate_DLEN (e : Stimulus) (s : State) : (stimulate e s).DLEN = s.DLEN := rfl
@[simp] theorem stimulate_COMPLETE (e : Stimulus) (s : State) : (stimulate e s).COMPLETE = s.COMPLETE := rfl
@[simp] theorem stimulate_FILLING (e : Stimulus) (s : State) : (stimulate e s).FILLING = s.FILLING := rfl
@[simp] theorem stimulate_BTN (e : Stimulus) (s : State) : (stimulate e s).BTN = s.BTN := rfl
@[simp] theorem stimulate_response (e : Stimulus) (s : State) : (stimulate e s).response = s.response := rfl
@[simp] theorem stimulate_trace (e : Stimulus) (s : State) : (stimulate e s).trace = s.trace := rfl
@[simp] theorem stimulate_host (e : Stimulus) (s : State) : (stimulate e s).host = { s.host with agenda := s.host.agenda ++ [.handle e] } := rfl
@[simp] theorem stimulate_inbox (e : Stimulus) (s : State) : (stimulate e s).inbox = s.inbox := rfl

@[simp] theorem produced_cfg (s : State) : (produced s).cfg = s.cfg := rfl
@[simp] theorem produced_DECIM (s : State) : (produced s).DECIM = s.DECIM := rfl
@[simp] theorem produced_REF (s : State) : (produced s).REF = s.REF := rfl
@[simp] theorem produced_COMPLETE (s : State) : (produced s).COMPLETE = s.COMPLETE := rfl
@[simp] theorem produced_FILLING (s : State) : (produced s).FILLING = s.FILLING := rfl
@[simp] theorem produced_BTN (s : State) : (produced s).BTN = s.BTN := rfl
@[simp] theorem produced_response (s : State) : (produced s).response = s.response := rfl
@[simp] theorem produced_trace (s : State) : (produced s).trace = s.trace := rfl
@[simp] theorem produced_host (s : State) : (produced s).host = s.host := rfl
@[simp] theorem produced_inbox (s : State) : (produced s).inbox = s.inbox := rfl

/-! What the answers of a command are. -/

@[simp] theorem State.respond_eq (s : State) (st : Status) (d : BitVec 32) : s.respond st d = .next (s.complete st d) := rfl

@[simp] theorem State.raise_eq (s : State) (st : Status) : s.raise st = .next (s.complete st 0#32) := rfl

@[simp] theorem State.withFetchWord_eq (s : State) (nbits w : Nat) :
    s.withFetchWord nbits w = s.putWord (BitVec.ofNat 32 (w % 2 ^ nbits)) := rfl

end Sys2Proof.Machine
end

