-- ==== Sys2Proof/Laws/Meanings.lean ====
section
/-! SUPPORT. One law a sub-operation of the meanings: the folds and the search of PRODUCE (`40_acquisition.md` R128 to
R131), the records of RENDER (`41_frame_updater.md` R161), the tick of a button (`42_debouncer.md` R182), and what a
command can answer. -/

namespace Sys2Proof.Machine

/-! ### The folds of step 1 (R128) -/

@[simp] theorem lowest_succ (f : Nat → Nat) (n : Nat) : lowest f (n + 1) = min (lowest f n) (f n) := by
  simp [lowest, List.range_succ]

@[simp] theorem highest_succ (f : Nat → Nat) (n : Nat) : highest f (n + 1) = max (highest f n) (f n) := by
  simp [highest, List.range_succ]

theorem lowest_le {f : Nat → Nat} {n j : Nat} (h : j < n) : lowest f n ≤ f j := by
  induction n with
  | zero => omega
  | succ n ih => rcases Nat.lt_succ_iff_lt_or_eq.mp h with h | rfl <;> simp; exact .inl (ih h)

theorem le_highest {f : Nat → Nat} {n j : Nat} (h : j < n) : f j ≤ highest f n := by
  induction n with
  | zero => omega
  | succ n ih => rcases Nat.lt_succ_iff_lt_or_eq.mp h with h | rfl <;> simp; exact .inl (ih h)

theorem lowest_le_start (f : Nat → Nat) (n : Nat) : lowest f n ≤ 65535 := by
  induction n with
  | zero => simp [lowest]
  | succ n ih => simp [ih]

theorem highest_le_of_forall {f : Nat → Nat} {n M : Nat} (h : ∀ j, j < n → f j ≤ M) : highest f n ≤ M := by
  induction n with
  | zero => simp [highest]
  | succ n ih => simpa using ⟨ih fun j hj => h j (by omega), h n (by omega)⟩

/-- With at least one value, none above 65535, the least is one of the values. -/
theorem lowest_attained {f : Nat → Nat} {n : Nat} (hn : 1 ≤ n) (hf : ∀ j, j < n → f j ≤ 65535) :
    ∃ j, j < n ∧ f j = lowest f n := by
  induction n with
  | zero => omega
  | succ n ih =>
    by_cases h : lowest f n ≤ f n ∧ 1 ≤ n
    · obtain ⟨j, hj, e⟩ := ih h.2 fun j hj => hf j (by omega)
      exact ⟨j, by omega, by simp [e, h.1]⟩
    · refine ⟨n, by omega, ?_⟩
      rcases Nat.eq_zero_or_pos n with rfl | h'
      · simpa [lowest] using hf 0 (by omega)
      · rw [lowest_succ, Nat.min_eq_right (by omega)]

/-- With at least one value, the greatest is one of the values. -/
theorem highest_attained {f : Nat → Nat} {n : Nat} (hn : 1 ≤ n) : ∃ j, j < n ∧ f j = highest f n := by
  induction n with
  | zero => omega
  | succ n ih =>
    by_cases h : f n ≤ highest f n ∧ 1 ≤ n
    · obtain ⟨j, hj, e⟩ := ih h.2
      exact ⟨j, by omega, by simp [e, h.1]⟩
    · refine ⟨n, by omega, ?_⟩
      rcases Nat.eq_zero_or_pos n with rfl | h'
      · simp [highest]
      · rw [highest_succ, Nat.max_eq_right (by omega)]

/-! ### The search of step 2 (R129, R130) -/

theorem isEdge_iff {th : Nat} {y : Nat → Sample} {i : Nat} :
    isEdge th y i = true ↔ th < (y i).toNat ∧ (y (i + 1)).toNat ≤ th := by simp [isEdge]

/-- The trigger is the first edge of the span, or 0 without one. -/
theorem triggerIndex_spec (c : Cfg) (y : Nat → Sample) (L : Nat) :
    (triggerIndex c y L < L - c.W ∧ isEdge c.TRIG_TH y (triggerIndex c y L) = true ∧
      ∀ i, i < triggerIndex c y L → isEdge c.TRIG_TH y i = false) ∨
    (triggerIndex c y L = 0 ∧ ∀ i, i < L - c.W → isEdge c.TRIG_TH y i = false) := by
  unfold triggerIndex
  cases h : (List.range (L - c.W)).find? (isEdge c.TRIG_TH y) with
  | none => exact .inr ⟨rfl, fun i hi => by simpa using List.find?_eq_none.mp h i (List.mem_range.mpr hi)⟩
  | some t =>
    obtain ⟨ht, i, hi, e, hlt⟩ := List.find?_eq_some_iff_getElem.mp h
    have hi' : i < L - c.W := by simpa using hi
    have e' : i = t := by simpa using e
    subst e'
    exact .inl ⟨hi', ht, fun j hj => by simpa using hlt j hj⟩

theorem triggerIndex_le (c : Cfg) (y : Nat → Sample) (L : Nat) : triggerIndex c y L ≤ L - c.W - 1 := by
  rcases triggerIndex_spec c y L with ⟨h, -⟩ | ⟨h, -⟩ <;> omega

/-! ### Rescaling (R127) -/

theorem scaleOf_inRange {c : Cfg} (hc : c.Valid) (ref : BitVec 16) : (scaleOf c ref).InRange := by
  obtain ⟨-, -, -, -, hn, hk, -⟩ := hc
  unfold scaleOf
  split
  · exact hn
  · rename_i h
    have h' : 1 ≤ ref.toNat := by
      rcases Nat.eq_zero_or_pos ref.toNat with e | e
      · exact absurd (BitVec.eq_of_toNat_eq (by simpa using e)) h
      · exact e
    refine ⟨Nat.mul_pos hk.1 h', hk.2.1, hk.2.2.trans ?_⟩
    simpa [Nat.mul_assoc] using Nat.mul_le_mul_left (65536 * c.SCALE_K.den) h'

theorem screenOffset_toNat {c : Cfg} (hH : c.H ≤ 65535) (q : Ratio) (r : Nat) :
    (screenOffset c q r).toNat = c.H - min (rndMul r q) c.H := by
  simp only [screenOffset, BitVec.toNat_ofNat]
  exact Nat.mod_eq_of_lt (by omega)

theorem base_toNat {c : Cfg} (hH : c.H ≤ 65535) : c.BASE.toNat = c.H := by
  simp only [Cfg.BASE, BitVec.toNat_ofNat]
  exact Nat.mod_eq_of_lt (by omega)

theorem visited_le (s : State) (j : Nat) : visited s j ≤ 65535 := by
  have := (s.mem.read .RAW (j * s.DECIM.toNat)).isLt
  simp only [visited]
  omega

/-! ### The records of RENDER (R161) -/

theorem length_flatMap_pair {α β : Type} (f g : α → β) (l : List α) :
    (l.flatMap fun a => [f a, g a]).length = 2 * l.length := by
  induction l with
  | nil => rfl
  | cons a l ih => simp [ih]; omega

theorem getElem?_flatMap_pair {α β : Type} (f g : α → β) (l : List α) (i : Nat) :
    (l.flatMap fun a => [f a, g a])[2 * i]? = (l[i]?).map f ∧
    (l.flatMap fun a => [f a, g a])[2 * i + 1]? = (l[i]?).map g := by
  induction l generalizing i with
  | nil => simp
  | cons a l ih =>
    cases i with
    | zero => simp
    | succ i =>
      have h1 : 2 * (i + 1) = (2 * i + 1) + 1 := by omega
      have h2 : 2 * (i + 1) + 1 = ((2 * i + 1) + 1) + 1 := by omega
      rw [h2, h1]
      simpa using ih i

theorem length_renderLines (c : Cfg) (m : Memory) : (renderLines c m).length = 2 * (c.W - 1) := by
  rw [renderLines, length_flatMap_pair, List.length_range]

/-! ### The tick of a button (R182) -/

@[simp] theorem Button.levelStep_true (c : Cfg) (r : Button) :
    r.levelStep c true = { r with DUR := BitVec.ofNat 16 (satInc r.DUR.toNat c.DUR_CAP) } := rfl

theorem Button.reset_ok (c : Cfg) : Button.reset.Ok c := by
  constructor <;> simp [Button.reset]

@[simp] theorem length_tickAll (c : Cfg) (imm : BitVec 16) (btn : List Button) :
    (tickAll c imm btn).length = btn.length := by simp [tickAll]

theorem Button.ok_levelStep {c : Cfg} (hc : c.Valid) {r : Button} (h : r.Ok c) (l : Bool) : (r.levelStep c l).Ok c := by
  obtain ⟨-, -, -, -, -, -, -, -, -, -, ⟨-, hcap⟩, ⟨hw1, hw2⟩, -⟩ := hc
  obtain ⟨h1, h2, h3, h4, h5⟩ := h
  unfold Button.levelStep
  split
  · refine ⟨?_, h2, h3, h4, h5⟩
    have := satInc_le r.DUR.toNat c.DUR_CAP
    simp only [BitVec.toNat_ofNat]
    exact (Nat.mod_le _ _).trans this
  · split
    · unfold Button.release
      split
      · exact ⟨by simp, h2, h3, h4, h5⟩
      · split
        · have hs : satInc r.CNT.toNat 2 ≤ 2 := satInc_le _ _
          have hs' : 1 ≤ satInc r.CNT.toNat 2 := by unfold satInc; omega
          have e1 : satInc r.CNT.toNat 2 % 2 ^ 2 = satInc r.CNT.toNat 2 := Nat.mod_eq_of_lt (by omega)
          have e2 : c.DBL_WINDOW % 2 ^ 16 = c.DBL_WINDOW := Nat.mod_eq_of_lt (by omega)
          exact ⟨by simp, by simpa only [BitVec.toNat_ofNat, e1] using hs, by simp only [BitVec.toNat_ofNat, e2]; omega,
            by simp only [BitVec.toNat_ofNat, e2]; exact ⟨fun _ => trivial, fun _ => hw1⟩,
            by simp only [BitVec.toNat_ofNat, e1]; exact ⟨fun _ => hs', fun _ => trivial⟩⟩
        · exact ⟨by simp, h2, h3, h4, h5⟩
    · exact ⟨h1, h2, h3, h4, h5⟩

theorem Button.ok_windowStep {c : Cfg} {r : Button} (h : r.Ok c) : r.windowStep.Ok c := by
  obtain ⟨h1, h2, h3, h4, h5⟩ := h
  unfold Button.windowStep
  have hlt := r.WIN.isLt
  have e : (r.WIN.toNat - 1) % 2 ^ 16 = r.WIN.toNat - 1 := Nat.mod_eq_of_lt (by omega)
  split
  · dsimp only
    split
    · constructor <;> simp_all
    · rename_i hp hz
      have hz' : r.WIN.toNat - 1 ≠ 0 := fun h0 => hz (by rw [h0])
      refine ⟨h1, h2, ?_, ?_, h5⟩
      · simp only [BitVec.toNat_ofNat, e]; omega
      · simp only [BitVec.toNat_ofNat, e]
        exact ⟨fun _ => h4.mp hp, fun _ => by omega⟩
  · exact ⟨h1, h2, h3, h4, h5⟩

/-- A tick keeps the invariant of a record (R30). -/
theorem Button.ok_tick {c : Cfg} (hc : c.Valid) {r : Button} (h : r.Ok c) (l : Bool) : (r.tick c l).Ok c :=
  Button.ok_windowStep (Button.ok_levelStep hc h l)

/-- Every record after DBTICK was one before, or is the tick of one. -/
theorem forall_mem_tickAll {c : Cfg} {imm : BitVec 16} {btn : List Button} {p : Button → Prop}
    (ht : ∀ r l, p r → p (r.tick c l)) (h : ∀ r ∈ btn, p r) : ∀ r ∈ tickAll c imm btn, p r := by
  intro r hr
  obtain ⟨i, hi, rfl⟩ := List.getElem_of_mem hr
  have hi' : i < btn.length := by simpa using hi
  have := h _ (List.getElem_mem hi')
  by_cases hb : i < c.NB <;> simp [tickAll, hb, this, ht]

theorem button_tickAll {s : State} {imm : BitVec 16} {b : Nat} (hl : s.BTN.length = s.cfg.NB) (hb : b < s.cfg.NB) :
    (tickAll s.cfg imm s.BTN).getD b Button.reset = (s.button b).tick s.cfg (levelOf imm b) := by
  have h : b < s.BTN.length := by omega
  simp [tickAll, State.button, List.getD_eq_getElem?_getD, h, hb]

/-! ### Readback -/

@[simp] theorem eventOfCode_eventCode (e : Event) : eventOfCode (eventCode e) = e := by cases e <;> rfl

end Sys2Proof.Machine
end

