-- ==== Sys2Proof/Laws/PerInstr.lean ====
section
/-! SUPPORT. The fields of a packed word, and one lemma a constructor: the fields of a command's word are its opcode
and its operands, and the opcode column read both ways agrees (`30_encoding.md` R90, R91, R95). -/

namespace Sys2Proof

theorem opField_packWord (op a : BitVec 8) (imm : BitVec 16) : opField (packWord op a imm) = op := by
  apply BitVec.eq_of_getLsbD_eq
  intro i hi
  simp only [opField, packWord, BitVec.getLsbD_extractLsb', BitVec.getLsbD_append]
  have h1 : ¬ 24 + i < 16 := by omega
  have h2 : ¬ 24 + i - 16 < 8 := by omega
  have h3 : 24 + i - 16 - 8 = i := by omega
  simp [hi, h1, h2, h3]

theorem aField_packWord (op a : BitVec 8) (imm : BitVec 16) : aField (packWord op a imm) = a := by
  apply BitVec.eq_of_getLsbD_eq
  intro i hi
  simp only [aField, packWord, BitVec.getLsbD_extractLsb', BitVec.getLsbD_append]
  have h1 : ¬ 16 + i < 16 := by omega
  have h2 : 16 + i - 16 = i := by omega
  simp [hi, h1, h2]

theorem immField_packWord (op a : BitVec 8) (imm : BitVec 16) : immField (packWord op a imm) = imm := by
  apply BitVec.eq_of_getLsbD_eq
  intro i hi
  simp only [immField, packWord, BitVec.getLsbD_extractLsb', BitVec.getLsbD_append]
  simp [hi]

/-- A word is made of its three fields. -/
theorem packWord_fields (w : Word) : packWord (opField w) (aField w) (immField w) = w := by
  apply BitVec.eq_of_getLsbD_eq
  intro i hi
  simp only [opField, aField, immField, packWord, BitVec.getLsbD_extractLsb', BitVec.getLsbD_append]
  by_cases h1 : i < 16
  · simp [h1]
  · by_cases h2 : i - 16 < 8
    · have : 16 + (i - 16) = i := by omega
      simp [h1, h2, this]
    · have : 24 + (i - 16 - 8) = i := by omega
      have h3 : i - 16 - 8 < 8 := by omega
      simp [h1, h2, h3, this]

end Sys2Proof

namespace Sys2Proof.Laws.WordFields

/-- The three fields of `i`'s word are its opcode and its operands, the unused ones are zero, and the opcode's row is
`i`'s. -/
def Statement (i : Instr) : Prop :=
  opField (encode i) = i.opcode ∧ aField (encode i) = i.aOperand ∧ immField (encode i) = i.immOperand ∧
  unusedFieldsZero i.format i.aOperand i.immOperand = true ∧
  opcodeRow i.opcode i.aOperand i.immOperand = some (i.format, i)

/-- What does not depend on the constructor. -/
theorem of_row (i : Instr) (hz : unusedFieldsZero i.format i.aOperand i.immOperand = true)
    (hr : opcodeRow i.opcode i.aOperand i.immOperand = some (i.format, i)) : Statement i :=
  ⟨opField_packWord _ _ _, aField_packWord _ _ _, immField_packWord _ _ _, hz, hr⟩

theorem nop : Statement (.nop) := of_row _ rfl rfl

theorem produce : Statement (.produce) := of_row _ rfl rfl

theorem render : Statement (.render) := of_row _ rfl rfl

theorem clrfrm : Statement (.clrfrm) := of_row _ rfl rfl

theorem setdec (imm : BitVec 16) : Statement (.setdec imm) := of_row _ rfl rfl

theorem setref (imm : BitVec 16) : Statement (.setref imm) := of_row _ rfl rfl

theorem sstart : Statement (.sstart) := of_row _ rfl rfl

theorem srestart : Statement (.srestart) := of_row _ rfl rfl

theorem sclear : Statement (.sclear) := of_row _ rfl rfl

theorem spoll : Statement (.spoll) := of_row _ rfl rfl

theorem dbtick (imm : BitVec 16) : Statement (.dbtick imm) := of_row _ rfl rfl

theorem evrd (a : BitVec 8) : Statement (.evrd a) := of_row _ rfl rfl

theorem evclr (a : BitVec 8) : Statement (.evclr a) := of_row _ rfl rfl

theorem rdreg (a : BitVec 8) : Statement (.rdreg a) := of_row _ rfl rfl

theorem rdcur (imm : BitVec 16) : Statement (.rdcur imm) := of_row _ rfl rfl

theorem rdprv (imm : BitVec 16) : Statement (.rdprv imm) := of_row _ rfl rfl

end Sys2Proof.Laws.WordFields
end

