-- ==== Sys2Proof/Laws/Step.lean ====
section
/-! SUPPORT. What a command can do (`30_encoding.md` R92, R95) and what a step can do (`10_state.md` R24, `20_memory.md`
R72), said once as inversion lemmas. -/

namespace Sys2Proof.Machine

/-- PRODUCE with its two statuses as one completion (R123, R124, R135 (k)). -/
theorem execProduce_eq (s : State) :
    execProduce s =
      if s.COMPLETE = false then .next (s.complete .notReady 0#32)
      else if s.DECIM = 0#16 then .refused .decimationStepZero
      else .next ((produced s).complete (if s.REF = 0#16 then .refFallback else .ok) 0#32) := by
  unfold execProduce
  split
  · rfl
  · split
    · rfl
    · split <;> rfl

/-- Everything a command can do when it answers a next state: a response alone, with data 0 if it was not carried out,
or the one write of its kind and then the response. -/
theorem exec_next_cases {s t : State} {i : Instr} (h : exec i s = .next t) :
    (∃ st d, t = s.complete st d ∧ (st.carriedOut = false → d = 0#32)) ∨
    (i = .produce ∧ s.COMPLETE = true ∧ s.DECIM ≠ 0#16 ∧
      ∃ st, st.carriedOut = true ∧ t = (produced s).complete st 0#32) ∨
    (i = .render ∧ t = State.complete
      { s.emit (renderLines s.cfg s.mem) with mem := s.mem.fill .PRV s.cfg.W (s.mem.read .CUR) } .ok 0#32) ∨
    (i = .clrfrm ∧ t = State.complete
      { s with mem := (s.mem.fill .PRV s.cfg.W fun _ => s.cfg.BASE).fill .CUR s.cfg.W fun _ => s.cfg.BASE } .ok 0#32) ∨
    (∃ imm st, i = .setdec imm ∧ st.carriedOut = true ∧
      t = State.complete { s with DECIM := clampStep s.cfg imm } st (zext32 (clampStep s.cfg imm))) ∨
    (∃ imm, i = .setref imm ∧ t = State.complete { s with REF := imm } .ok 0#32) ∨
    ((i = .sstart ∨ i = .srestart) ∧ t = s.startSampler.complete .ok 0#32) ∨
    (i = .sclear ∧ t = s.clearComplete.complete .ok 0#32) ∨
    (∃ imm, i = .dbtick imm ∧ t = State.complete { s with BTN := tickAll s.cfg imm s.BTN } .ok 0#32) ∨
    (∃ a, i = .evclr a ∧
      t = State.complete { s with BTN := s.BTN.modify a.toNat fun r => { r with EV := .none } } .ok 0#32) := by
  cases i <;> simp only [exec] at h
  case produce =>
    rw [execProduce_eq] at h
    split at h
    · cases h; exact .inl ⟨_, _, rfl, fun _ => rfl⟩
    · split at h
      · cases h
      · cases h
        refine .inr (.inl ⟨rfl, by simpa using ‹¬ s.COMPLETE = false›, by assumption, _, ?_, rfl⟩)
        split <;> rfl
  case setdec imm =>
    unfold execSetdec at h
    dsimp only at h
    split at h <;> cases h <;> exact .inr (.inr (.inr (.inr (.inl ⟨_, _, rfl, rfl, rfl⟩))))
  case dbtick imm =>
    unfold execDbtick at h
    split at h <;> cases h
    · simp
    · exact .inl ⟨_, _, rfl, fun _ => rfl⟩
  case evclr a =>
    unfold execEvclr at h
    split at h <;> cases h
    · simp
    · exact .inl ⟨_, _, rfl, fun _ => rfl⟩
  case evrd a =>
    unfold execEvrd at h
    split at h <;> cases h <;> exact .inl ⟨_, _, rfl, by simp [Status.carriedOut]⟩
  case rdreg a =>
    unfold execRdreg at h
    split at h <;> cases h <;> exact .inl ⟨_, _, rfl, by simp [Status.carriedOut]⟩
  case rdcur k =>
    unfold execRdcur at h
    split at h <;> cases h <;> exact .inl ⟨_, _, rfl, by simp [Status.carriedOut]⟩
  case rdprv k =>
    unfold execRdprv at h
    split at h <;> cases h <;> exact .inl ⟨_, _, rfl, by simp [Status.carriedOut]⟩
  case nop => cases h; exact .inl ⟨_, _, rfl, fun _ => rfl⟩
  case spoll => cases h; exact .inl ⟨_, _, rfl, by simp [Status.carriedOut]⟩
  all_goals cases h; simp

/-- A word on the port runs a command or is answered ILLEGAL_CMD (R94, R97). -/
theorem issueWord_next_cases {w : Word} {s t : State} (h : issueWord w s = .next t) :
    (∃ i, decodeCmd s.cfg w = .ok i ∧ exec i s = .next t) ∨ t = s.complete .illegalCmd 0#32 := by
  unfold issueWord at h
  split at h
  · exact .inl ⟨_, ‹_›, h⟩
  · cases h; exact .inr rfl

/-- No command, and no word on the port, touches the host, the inbox or the configuration. -/
theorem exec_keeps_host {s t : State} {i : Instr} (h : exec i s = .next t) :
    t.host = s.host ∧ t.inbox = s.inbox ∧ t.cfg = s.cfg := by
  rcases exec_next_cases h with ⟨st, d, rfl, -⟩ | ⟨-, -, -, st, -, rfl⟩ | ⟨-, rfl⟩ | ⟨-, rfl⟩ | ⟨imm, st, -, -, rfl⟩ |
    ⟨imm, -, rfl⟩ | ⟨-, rfl⟩ | ⟨-, rfl⟩ | ⟨imm, -, rfl⟩ | ⟨a, -, rfl⟩ <;> simp

theorem issueWord_keeps_host {w : Word} {s t : State} (h : issueWord w s = .next t) :
    t.host = s.host ∧ t.inbox = s.inbox ∧ t.cfg = s.cfg := by
  rcases issueWord_next_cases h with ⟨i, -, h⟩ | rfl
  · exact exec_keeps_host h
  · simp

theorem andThen_next {r : Result} {f : State → State} {t : State} (h : andThen r f = .next t) :
    ∃ u, r = .next u ∧ t = f u := by
  unfold andThen at h
  split at h <;> cases h
  exact ⟨_, rfl, rfl⟩

/-- No command reads the host or the inbox (`10_state.md` R20): under others it does the same. -/
theorem exec_with_host (i : Instr) (s : State) (x : ModeController) (y : List Input) :
    exec i { s with host := x, inbox := y } = andThen (exec i s) fun t => { t with host := x, inbox := y } := by
  cases i <;> simp only [exec]
  case produce =>
    simp only [execProduce_eq]
    split
    · rfl
    · split <;> rfl
  case setdec imm => simp only [execSetdec]; split <;> rfl
  case dbtick imm => simp only [execDbtick]; split <;> rfl
  case evrd a => simp only [execEvrd]; split <;> rfl
  case evclr a => simp only [execEvclr]; split <;> rfl
  case rdreg a =>
    have e : readRegister { s with host := x, inbox := y } a = readRegister s a := rfl
    simp only [execRdreg, e]
    split <;> rfl
  case rdcur k => simp only [execRdcur]; split <;> rfl
  case rdprv k => simp only [execRdprv]; split <;> rfl
  all_goals rfl

theorem issueWord_with_host (w : Word) (s : State) (x : ModeController) (y : List Input) :
    issueWord w { s with host := x, inbox := y } = andThen (issueWord w s) fun t => { t with host := x, inbox := y } := by
  simp only [issueWord]
  split
  · exact exec_with_host _ _ _ _
  · rfl

/-- What the host does with a response is to itself alone (`44_mode_controller.md` R242). -/
theorem afterPoll_changes_host (b : Nat) (s : State) : ∃ x, afterPoll b s = { s with host := x } := by
  unfold afterPoll
  split
  · split
    · exact ⟨s.host, rfl⟩
    · exact ⟨_, rfl⟩
  · exact ⟨s.host, rfl⟩

/-- What the host does with a response is to itself alone (R245). -/
theorem afterProduce_changes_host (s : State) : ∃ x, afterProduce s = { s with host := x } := by
  unfold afterProduce
  split
  · exact ⟨_, rfl⟩
  · exact ⟨_, rfl⟩
  · exact ⟨s.host, rfl⟩

/-- Everything a Sampler completion can do (`43_sampler_system.md` R226). -/
theorem samplerStep_next_cases {block : List Sample} {s t : State} (h : samplerStep block s = .next t) :
    (s.FILLING = false ∧ t = s) ∨
    (s.FILLING = true ∧ block.length = s.cfg.N ∧
      t = { s.sampled with mem := s.mem.fill .RAW s.cfg.N fun i => block.getD i (Config.absentElement i) }) := by
  unfold samplerStep at h
  split at h
  · cases h; exact .inl ⟨by assumption, rfl⟩
  · split at h
    · cases h; exact .inr ⟨by simpa using ‹¬ s.FILLING = false›, by assumption, rfl⟩
    · cases h

/-! ### The reference host (`44_mode_controller.md`) -/

/-- Nothing but reset puts a startup on the agenda: none of the lists the host puts there holds one. -/
theorem startup_not_mem_respondTo (c : Cfg) (h : ModeController) (e : Stimulus) (r d : Option (BitVec 16)) :
    HostAction.startup r d ∉ respondTo c h e := by
  cases e <;> simp only [respondTo]
  case renderTick => split <;> simp
  all_goals simp

theorem startup_not_mem_startupCommands (c : Cfg) (r d r' d' : Option (BitVec 16)) :
    HostAction.startup r d ∉ startupCommands c r' d' := by
  unfold startupCommands
  cases r' <;> cases d' <;> split <;> simp

/-- Dispatch puts actions before the agenda, no startup among them, and changes the mode and the flag by R243 and R244
alone. -/
theorem dispatchEvent_cases (c : Cfg) (h : ModeController) (b : Nat) (ev : Event) :
    ∃ pre, (∀ r d, HostAction.startup r d ∉ pre) ∧ (dispatchEvent c h b ev).agenda = pre ++ h.agenda ∧
      ((dispatchEvent c h b ev).MODE ≠ h.MODE → b = c.MODE_BTN ∧ ev = .doublePress) ∧
      ((dispatchEvent c h b ev).PAUSED ≠ h.PAUSED → b = c.PAUSE_BTN ∧ ev = c.PAUSE_KIND ∧ h.MODE = .scope) := by
  unfold dispatchEvent
  split
  · refine ⟨(if nextMode h.MODE = .scope then scopeEnter else []) ++ [clearEvent b], ?_, by simp, fun _ => ‹_›, by simp⟩
    intro r d
    split <;> simp [scopeEnter, clearEvent]
  · split
    · exact ⟨[clearEvent b], by simp [clearEvent], rfl, by simp, fun _ => ‹_›⟩
    · exact ⟨[clearEvent b], by simp [clearEvent], rfl, by simp, by simp⟩

/-- `EVRD b` for an existing button: the code of its event, and nothing else. -/
theorem issueWord_evrd {s : State} {b : Nat} (hb : b < s.cfg.NB) (hNB : s.cfg.NB ≤ 16) :
    issueWord (encode (.evrd (BitVec.ofNat 8 b))) s = .next (s.complete .ok (zext32 (eventCode (s.button b).EV))) := by
  obtain ⟨h₁, h₂, h₃, h₄, h₅⟩ := Laws.WordFields.evrd (BitVec.ofNat 8 b)
  have hd : decodeCmd s.cfg (encode (.evrd (BitVec.ofNat 8 b))) = .ok (.evrd (BitVec.ofNat 8 b)) := by
    unfold decodeCmd decode
    rw [h₁, h₂, h₃, h₅]
    simp [h₄, Instr.wellFormed]
  have e : (BitVec.ofNat 8 b).toNat = b := by
    simp only [BitVec.toNat_ofNat]
    exact Nat.mod_eq_of_lt (by omega)
  simp [issueWord, hd, exec, execEvrd, buttonInRange, e, hb]

/-- The poll of an existing button: nothing without an event, else its dispatch (R242). -/
theorem afterPoll_of_evrd (b : Nat) (s : State) (ev : Event) :
    afterPoll b (s.complete .ok (zext32 (eventCode ev))) =
      if ev = .none then s.complete .ok (zext32 (eventCode ev))
      else { s.complete .ok (zext32 (eventCode ev)) with host := dispatchEvent s.cfg s.host b ev } := by
  cases ev <;> rfl

/-- Everything a step can do to the reference host: nothing; a stimulus at the end of the agenda; or one action taken
off the agenda and others, no startup among them, put in its place. -/
theorem step_host_cases {s t : State} (h : step s = .next t) :
    t.host = s.host ∨
    (∃ e, t.host = { s.host with agenda := s.host.agenda ++ [.handle e] }) ∨
    ∃ rest a later pre, s.inbox = .hostTurn :: rest ∧ s.host.agenda = a :: later ∧ t.host.agenda = pre ++ later ∧
      (∀ r d, HostAction.startup r d ∉ pre) ∧
      (t.host.MODE ≠ s.host.MODE → a = .poll s.cfg.MODE_BTN) ∧
      (t.host.PAUSED ≠ s.host.PAUSED → a = .poll s.cfg.PAUSE_BTN ∧ s.host.MODE = .scope) := by
  unfold step oneStep at h
  split at h
  case isFalse => cases h
  unfold takeInput at h
  split at h
  · cases h; exact .inl rfl
  · rename_i x s' hx
    split at hx
    · cases hx
    · rename_i rest hin
      cases hx
      cases x with
      | command w => exact .inl (issueWord_keeps_host h).1
      | sampler block =>
        rcases samplerStep_next_cases h with ⟨-, rfl⟩ | ⟨-, -, rfl⟩ <;> exact .inl rfl
      | stimulus e => cases h; exact .inr (.inl ⟨e, rfl⟩)
      | hostTurn =>
        simp only [deliver, hostTurn] at h
        split at h
        · cases h; exact .inl rfl
        · rename_i a later ha
          refine .inr (.inr ⟨rest, a, later, ?_⟩)
          cases a with
          | startup r d =>
            cases h
            exact ⟨_, hin, ha, rfl, fun r' d' => startup_not_mem_startupCommands _ _ _ _ _, by simp, by simp⟩
          | handle e =>
            cases h
            exact ⟨_, hin, ha, rfl, fun r d => startup_not_mem_respondTo _ _ _ _ _, by simp, by simp⟩
          | issue i =>
            have e := (issueWord_keeps_host h).1
            exact ⟨[], hin, ha, by rw [e]; rfl, by simp, by simp [e], by simp [e]⟩
          | produceFrame =>
            obtain ⟨u, hu, rfl⟩ := andThen_next h
            have e := (issueWord_keeps_host hu).1
            unfold afterProduce
            split
            · exact ⟨[.issue .srestart], hin, ha, by simp [e], by simp, by simp [e], by simp [e]⟩
            · exact ⟨[.issue .srestart], hin, ha, by simp [e], by simp, by simp [e], by simp [e]⟩
            · exact ⟨[], hin, ha, by simp [e], by simp, by simp [e], by simp [e]⟩
          | poll b =>
            obtain ⟨u, hu, rfl⟩ := andThen_next h
            obtain ⟨e, -, ec⟩ := issueWord_keeps_host hu
            unfold afterPoll
            split
            · split
              · exact ⟨[], hin, ha, by simp [e], by simp, by simp [e], by simp [e]⟩
              · rename_i d _ _
                obtain ⟨pre, h₁, h₂, h₃, h₄⟩ := dispatchEvent_cases u.cfg u.host b (eventOfCode (d.setWidth 2))
                rw [e] at h₂ h₃ h₄
                rw [ec] at h₃ h₄
                exact ⟨pre, hin, ha, by rw [e]; exact h₂, h₁,
                  fun hm => by rw [(h₃ (by rw [e, ec] at hm; exact hm)).1],
                  fun hp => by
                    obtain ⟨h₅, -, h₆⟩ := h₄ (by rw [e, ec] at hp; exact hp)
                    exact ⟨by rw [h₅], h₆⟩⟩
            · exact ⟨[], hin, ha, by simp [e], by simp, by simp [e], by simp [e]⟩

/-- Everything a step can do, up to the reference host and the inputs it takes: nothing, one word on the command port
(with the host moved before and after), or a Sampler completion. -/
theorem step_next_cases {s t : State} (h : step s = .next t) :
    s.cfg.Valid ∧ ∃ (x : ModeController) (y : List Input),
      (∃ x', t = { s with host := x', inbox := y }) ∨
      (∃ w u x', issueWord w { s with host := x, inbox := y } = .next u ∧ t = { u with host := x' }) ∨
      (∃ block, s.inbox = .sampler block :: y ∧ samplerStep block { s with inbox := y } = .next t) := by
  unfold step oneStep at h
  split at h
  case isFalse => cases h
  rename_i hv
  refine ⟨hv, ?_⟩
  unfold takeInput at h
  split at h
  · cases h; exact ⟨s.host, s.inbox, .inl ⟨_, rfl⟩⟩
  · rename_i x s' hx
    split at hx
    · cases hx
    · rename_i rest hin
      cases hx
      cases x with
      | command w => exact ⟨s.host, rest, .inr (.inl ⟨w, t, t.host, h, rfl⟩)⟩
      | sampler block => exact ⟨s.host, rest, .inr (.inr ⟨block, hin, h⟩)⟩
      | stimulus e => cases h; exact ⟨s.host, rest, .inl ⟨_, rfl⟩⟩
      | hostTurn =>
        simp only [deliver, hostTurn] at h
        split at h
        · cases h; exact ⟨s.host, rest, .inl ⟨_, rfl⟩⟩
        · rename_i a later ha
          cases a with
          | startup r d => cases h; exact ⟨s.host, rest, .inl ⟨_, rfl⟩⟩
          | handle e => cases h; exact ⟨s.host, rest, .inl ⟨_, rfl⟩⟩
          | issue i => exact ⟨_, rest, .inr (.inl ⟨_, t, t.host, h, rfl⟩)⟩
          | poll b =>
            obtain ⟨u, hu, rfl⟩ := andThen_next h
            obtain ⟨x', hx⟩ := afterPoll_changes_host b u
            exact ⟨_, rest, .inr (.inl ⟨_, u, x', hu, hx⟩)⟩
          | produceFrame =>
            obtain ⟨u, hu, rfl⟩ := andThen_next h
            obtain ⟨x', hx⟩ := afterProduce_changes_host u
            exact ⟨_, rest, .inr (.inl ⟨_, u, x', hu, hx⟩)⟩

end Sys2Proof.Machine
end

