-- ==== Sys2Proof/Tests/Slice0.lean ====
section
/-! SUPPORT. Tests: decoding of words written out from `30_encoding.md` R90, R91 and R95, one-step tests whose expected
values are those of `95_test_vectors.md`, and for every statement with hypotheses a witness that meets them all. -/

namespace Sys2Proof.Tests

open Sys2Proof Sys2Proof.Machine

/-! ### Small states -/

/-- The reset state under `CFG_T` with zero blocks. -/
def idle : State := State.resetWith Config.cfgT (fun _ => 0#16) (fun _ => 0#16) none none

/-- A completed block in `RAW`, with the step and the reference as given. -/
def holding (raw : List Sample) (step ref : BitVec 16) : State :=
  { idle with mem := { idle.mem with RAW := raw }, DECIM := step, REF := ref, COMPLETE := true }

/-- The block of vectors A1 to A3. -/
def blockA : List Sample := [0, 9, 160, 9, 1600, 9, 3200, 9, 480, 9, 320, 9]

/-- The ramp of vectors B1 to B5. -/
def blockB : List Sample := [0, 160, 320, 480, 640, 800, 960, 1120, 1280, 1440, 1600, 1600]

/-- The block of vector G2. -/
def blockG : List Sample := [0, 0, 0, 0, 0, 0, 0, 0, 1600, 1600, 1600, 1600]

/-- Vector A1: the state with the block of A1, the step 2 and no reference. -/
def stateA : State := holding blockA 2 0

/-- `idle` with the frames of vector RN1. -/
def frames : State := { idle with mem := { idle.mem with PRV := [100, 100, 100, 100], CUR := [90, 0, 0, 70] } }

/-- `idle` with the records of its two buttons as given. -/
def pressing (b₀ b₁ : Button) : State := { idle with BTN := [b₀, b₁] }

/-- The state a command answers; the old one if it answers none. -/
def after (r : Result) (s : State) : State :=
  match r with
  | .next t => t
  | .fault _ => s
  | .refused _ => s

/-- The answer is a next state with this property. -/
def gives (r : Result) (p : State → Bool) : Bool :=
  match r with
  | .next t => p t
  | .fault _ => false
  | .refused _ => false

/-- The response of a command from `s`. -/
def responseOf (i : Instr) (s : State) : Option Response := (after (exec i s) s).response

/-- A bound on every element of a list, from a check that runs. -/
theorem all_le {n : Nat} {l : List (BitVec 16)} (h : l.all (fun v => v.toNat ≤ n) = true) : ∀ v ∈ l, v.toNat ≤ n := by
  simpa using h

theorem all_lt {n : Nat} {l : List (BitVec 16)} (h : l.all (fun v => v.toNat < n) = true) : ∀ v ∈ l, v.toNat < n := by
  simpa using h

theorem idle_inv : idle.Inv where
  cfg := by decide
  mem := by decide
  cur := all_le (by decide)
  prv := all_le (by decide)
  decim_pos := by decide
  decim_max := by decide
  flags := by decide
  buttons := by decide
  button := by intro r hr; rw [List.eq_of_mem_replicate hr]; exact Button.reset_ok _
  dlen := by decide
  trig := by decide
  extremes := by decide
  response := by intro x hx; cases hx
  host := ⟨by simp [idle, State.resetWith], fun _ _ _ => ⟨rfl, rfl⟩⟩

/-- The invariant of `idle` with other inputs and another host. -/
theorem idle_inv_with {h : ModeController} (hh : h.Ok Config.cfgT) (x : List Input) :
    { idle with host := h, inbox := x }.Inv :=
  ⟨idle_inv.cfg, idle_inv.mem, idle_inv.cur, idle_inv.prv, idle_inv.decim_pos, idle_inv.decim_max, idle_inv.flags,
    idle_inv.buttons, idle_inv.button, idle_inv.dlen, idle_inv.trig, idle_inv.extremes, idle_inv.response, hh⟩

/-- The host's part of the invariant, of an agenda of one action that is no startup. -/
theorem host_ok_one {m : Mode} {p : Bool} {a : HostAction} (ha : ∀ r d, a ≠ .startup r d) :
    (⟨m, p, [a]⟩ : ModeController).Ok Config.cfgT :=
  ⟨by simp, by intro r d h; simp at h; exact absurd h (ha r d)⟩

theorem holding_inv {raw : List Sample} {step ref : BitVec 16} (hr : raw.length = 12)
    (hs : 1 ≤ step.toNat ∧ step.toNat ≤ 8) : (holding raw step ref).Inv :=
  ⟨idle_inv.cfg, ⟨hr, idle_inv.mem.2⟩, idle_inv.cur, idle_inv.prv, hs.1, hs.2, by simp [holding, idle, State.resetWith],
    idle_inv.buttons, idle_inv.button, idle_inv.dlen, idle_inv.trig, idle_inv.extremes, idle_inv.response,
    idle_inv.host⟩

theorem stateA_inv : stateA.Inv := holding_inv (by decide) (by decide)

/-- The invariant of `pressing`, from the records'. -/
theorem pressing_inv {b₀ b₁ : Button} (h₀ : b₀.Ok Config.cfgT) (h₁ : b₁.Ok Config.cfgT) : (pressing b₀ b₁).Inv :=
  ⟨idle_inv.cfg, idle_inv.mem, idle_inv.cur, idle_inv.prv, idle_inv.decim_pos, idle_inv.decim_max, idle_inv.flags, rfl,
    by intro r hr; simp [pressing] at hr; rcases hr with rfl | rfl; exacts [h₀, h₁],
    idle_inv.dlen, idle_inv.trig, idle_inv.extremes, idle_inv.response, idle_inv.host⟩

/-! ### WellFormed: the one check, and what it refuses (R94, R97 (c)) -/

theorem test_wellformed_refuses_level_of_absent_button :
    (Instr.dbtick 4#16).wellFormed Config.cfgT = false ∧ (Instr.dbtick 3#16).wellFormed Config.cfgT = true := by decide

theorem test_decodeCmd_refuses_level_of_absent_button :
    decodeCmd Config.cfgT 0x10000004#32 = .error .levelOfAbsentButton ∧
    decodeCmd Config.cfgT 0x10000003#32 = .ok (.dbtick 3#16) := by decide

/-! ### Decoding: `op`, `a` and `imm` written out from R90, R91 and R95 -/

theorem test_decode_nop : decode 0b00000000_00000000_0000000000000000#32 = .ok .nop := by decide
theorem test_decode_produce : decode 0b00000001_00000000_0000000000000000#32 = .ok .produce := by decide
theorem test_decode_render : decode 0b00000010_00000000_0000000000000000#32 = .ok .render := by decide
theorem test_decode_clrfrm : decode 0b00000011_00000000_0000000000000000#32 = .ok .clrfrm := by decide
theorem test_decode_setdec : decode 0b00000100_00000000_1000000000000011#32 = .ok (.setdec 0x8003#16) := by decide
theorem test_decode_setref : decode 0b00000101_00000000_0000010000000000#32 = .ok (.setref 1024#16) := by decide
theorem test_decode_sstart : decode 0b00001000_00000000_0000000000000000#32 = .ok .sstart := by decide
theorem test_decode_srestart : decode 0b00001001_00000000_0000000000000000#32 = .ok .srestart := by decide
theorem test_decode_sclear : decode 0b00001010_00000000_0000000000000000#32 = .ok .sclear := by decide
theorem test_decode_spoll : decode 0b00001011_00000000_0000000000000000#32 = .ok .spoll := by decide
theorem test_decode_dbtick : decode 0b00010000_00000000_1000000000000001#32 = .ok (.dbtick 0x8001#16) := by decide
theorem test_decode_evrd : decode 0b00010001_10000001_0000000000000000#32 = .ok (.evrd 0x81#8) := by decide
theorem test_decode_evclr : decode 0b00010010_00000001_0000000000000000#32 = .ok (.evclr 1#8) := by decide
theorem test_decode_rdreg : decode 0b00011000_00110001_0000000000000000#32 = .ok (.rdreg 0x31#8) := by decide
theorem test_decode_rdcur : decode 0b00011001_00000000_0000000100000011#32 = .ok (.rdcur 259#16) := by decide
theorem test_decode_rdprv : decode 0b00011010_00000000_1000000000000000#32 = .ok (.rdprv 32768#16) := by decide

/-- The refused words of `95_test_vectors.md` 2.1: unassigned opcodes, then fields that must be zero. -/
theorem test_decode_refuses :
    [0x06000000#32, 0x07000000#32, 0x0C000000#32, 0x13000000#32, 0x1B000000#32, 0x80000000#32, 0xFFFFFFFF#32,
      0x00000001#32, 0x00010000#32, 0x01000001#32, 0x04010003#32, 0x10010000#32, 0x11000001#32, 0x11020001#32].all
      (fun w => (decode w).toOption == none) = true := by decide

theorem test_encode_evrd : encode (.evrd 1#8) = 0x11010000#32 := by decide
theorem test_encode_setdec : encode (.setdec 3#16) = 0x04000003#32 := by decide

theorem test_decodeTableWord : decodeTableWord 32 0x05000400 = some (.setref 1024#16) ∧
    decodeTableWord 32 0x05010400 = none ∧ decodeTableWord 8 0x05 = none := by decide

/-! ### Arithmetic (vectors 2.2; R12, R127) -/

theorem test_rnd_ties_go_up :
    (rnd 0 1, rnd 7 16, rnd 1 2, rnd 3 2, rnd 5 2, rnd 99 2, rnd 199 2) = (0, 0, 1, 2, 3, 50, 100) := by decide

theorem test_rescale_nominal :
    [7, 8, 23, 24, 808, 1592, 65535].map (fun r => (screenOffset Config.cfgT (scaleOf Config.cfgT 0) r).toNat) =
      [100, 99, 99, 98, 49, 0, 0] := by decide

theorem test_rescale_reference_1000 :
    [100, 125, 1000, 1555, 2000].map (fun r => (screenOffset Config.cfgT (scaleOf Config.cfgT 1000) r).toNat) =
      [94, 92, 36, 0, 0] := by decide

/-! ### One step of each command (vectors 2.3 to 2.7) -/

theorem test_setdec_zero_is_clamped_up :
    gives (exec (.setdec 0#16) (holding blockA 3 0))
      (fun t => t.DECIM == 1#16 && t.response == some ⟨.decimClamped, 1#32⟩) = true := by decide

theorem test_setdec_at_and_above_the_bound :
    (responseOf (.setdec 8#16) idle, responseOf (.setdec 9#16) idle) =
      (some ⟨.ok, 8#32⟩, some ⟨.decimClamped, 8#32⟩) := by decide

theorem test_setref :
    gives (exec (.setref 65535#16) idle) (fun t => t.REF == 65535#16 && t.response == some ⟨.ok, 0#32⟩) = true := by
  decide

/-- Vector A1. -/
theorem test_produce_A1 :
    gives (exec .produce stateA) (fun t =>
      t.response == some ⟨.refFallback, 0#32⟩ && t.DLEN == 6#16 && t.mem.Y.take 6 == [100, 90, 0, 0, 70, 80] &&
      t.TRIG == 1#16 && t.mem.CUR == [90, 0, 0, 70] && t.RAW_MIN == 0#16 && t.RAW_MAX == 3200#16 &&
      t.AMP == 200#32 && t.COMPLETE && !t.FILLING) = true := by decide

/-- Vector B4: the sequence is shorter than the frame. -/
theorem test_produce_B4_pads :
    gives (exec .produce (holding blockB 4 0)) (fun t =>
      t.DLEN == 3#16 && t.TRIG == 0#16 && t.mem.CUR == [100, 60, 20, 100] && t.RAW_MAX == 1280#16 &&
      t.AMP == 80#32) = true := by decide

/-- Vector RN1. -/
theorem test_render_RN1 :
    gives (exec .render frames) (fun t =>
      t.trace == [⟨0, 100, 1, 100, 0x0000⟩, ⟨0, 90, 1, 0, 0xFFFF⟩, ⟨1, 100, 2, 100, 0x0000⟩, ⟨1, 0, 2, 0, 0xFFFF⟩,
        ⟨2, 100, 3, 100, 0x0000⟩, ⟨2, 0, 3, 70, 0xFFFF⟩] &&
      t.mem.PRV == [90, 0, 0, 70] && t.mem.CUR == [90, 0, 0, 70] && t.response == some ⟨.ok, 0#32⟩) = true := by decide

/-- Vector RN5. -/
theorem test_clrfrm_RN5 :
    gives (exec .clrfrm frames) (fun t =>
      t.mem.PRV == [100, 100, 100, 100] && t.mem.CUR == [100, 100, 100, 100] && t.trace == []) = true := by decide

/-- Vector DB19, tick 3: button 0 is released, button 1 stays pressed. -/
theorem test_dbtick_DB19_tick_3 :
    gives (exec (.dbtick 2#16) (pressing ⟨2, 0, 0, false, .none⟩ ⟨1, 0, 0, false, .none⟩)) (fun t =>
      t.BTN == [⟨0, 1, 3, true, .none⟩, ⟨2, 0, 0, false, .none⟩]) = true := by decide

/-- Vectors DB4 (tick 6), DB11 (tick 9), DB13 (tick 6) and DB14 (tick 3), each one tick of a released button. -/
theorem test_tick_of_a_release :
    (⟨5, 0, 0, false, .none⟩ : Button).tick Config.cfgT false = ⟨0, 0, 0, false, .longPress⟩ ∧
    (⟨5, 1, 2, true, .none⟩ : Button).tick { Config.cfgT with DBL_WINDOW := 8 } false = ⟨0, 2, 7, true, .none⟩ ∧
    (⟨1, 1, 1, true, .none⟩ : Button).tick Config.cfgT false = ⟨0, 0, 0, false, .press⟩ ∧
    (⟨2, 0, 0, false, .none⟩ : Button).tick { Config.cfgT with DBL_WINDOW := 1 } false = ⟨0, 0, 0, false, .press⟩ := by
  decide

/-- Vector DB20. -/
theorem test_evrd_DB20 :
    responseOf (.evrd 1#8) (pressing Button.reset ⟨0, 0, 0, false, .longPress⟩) = some ⟨.ok, 3#32⟩ ∧
    responseOf (.evrd 2#8) idle = some ⟨.badIndex, 0#32⟩ := by decide

theorem test_evclr_DB20 :
    gives (exec (.evclr 1#8) (pressing ⟨2, 0, 0, false, .press⟩ ⟨1, 1, 2, true, .longPress⟩)) (fun t =>
      t.BTN == [⟨2, 0, 0, false, .press⟩, ⟨1, 1, 2, true, .none⟩] && t.response == some ⟨.ok, 0#32⟩) = true := by decide

/-- Vectors 2.7: from (1, 0), from (0, 1) and from (1, 0). -/
theorem test_sstart :
    gives (exec .sstart stateA) (fun t => !t.COMPLETE && t.FILLING && t.response == some ⟨.ok, 0#32⟩) = true := by decide

theorem test_srestart :
    gives (exec .srestart stateA) (fun t => !t.COMPLETE && t.FILLING && t.response == some ⟨.ok, 0#32⟩) = true := by
  decide

theorem test_sclear_keeps_FILLING :
    gives (exec .sclear { idle with FILLING := true }) (fun t => !t.COMPLETE && t.FILLING) = true ∧
    gives (exec .sclear stateA) (fun t => !t.COMPLETE && !t.FILLING) = true := by decide

theorem test_spoll :
    responseOf .spoll stateA = some ⟨.ok, 1#32⟩ ∧ responseOf .spoll idle = some ⟨.ok, 0#32⟩ := by decide

theorem test_nop : responseOf .nop stateA = some ⟨.ok, 0#32⟩ := by decide

/-- The packing of BTN_FLG (2.7): CNT = 1, SEEN = 1, EV = 1 reads 0x15; STATUS of a completed block and of a filling
one. -/
theorem test_rdreg_packing :
    responseOf (.rdreg 0x31#8) (pressing Button.reset ⟨0, 1, 3, true, .press⟩) = some ⟨.ok, 0x15#32⟩ ∧
    responseOf (.rdreg 0x00#8) stateA = some ⟨.ok, 1#32⟩ ∧
    responseOf (.rdreg 0x00#8) { idle with FILLING := true } = some ⟨.ok, 2#32⟩ := by decide

/-- The unimplemented addresses of 2.7. -/
theorem test_rdreg_refuses :
    [0x08#8, 0x0F#8, 0x12#8, 0x22#8, 0x32#8, 0x40#8, 0xFF#8].all
      (fun a => responseOf (.rdreg a) idle == some ⟨.badIndex, 0#32⟩) = true := by decide

theorem test_rdcur :
    responseOf (.rdcur 3#16) frames = some ⟨.ok, 70#32⟩ ∧ responseOf (.rdcur 4#16) frames = some ⟨.badIndex, 0#32⟩ := by
  decide

theorem test_rdprv :
    responseOf (.rdprv 3#16) frames = some ⟨.ok, 100#32⟩ ∧ responseOf (.rdprv 4#16) frames = some ⟨.badIndex, 0#32⟩ := by
  decide

/-! ### The step -/

/-- Vector 2.1: 0x0400FFFF issued in the reset state. -/
theorem test_step_runs_the_word_put_after_reset :
    gives (step (State.reset.withFetchWord 32 0x0400FFFF)) (fun t =>
      t.response == some ⟨.decimClamped, 8#32⟩ && t.DECIM == 8#16 && t.inbox == []) = true := by decide

/-- Vector 2.1: 0xFFFFFFFF issued in the reset state. -/
theorem test_step_answers_illegal_word :
    gives (step (State.reset.withFetchWord 32 0xFFFFFFFF)) (fun t =>
      t.response == some ⟨.illegalCmd, 0#32⟩ && t.DECIM == 1#16) = true := by decide

/-- Vector 2.7: the Sampler step from (0, 1). -/
theorem test_step_sampler :
    gives (step { idle with FILLING := true, inbox := [.sampler blockA] }) (fun t =>
      t.COMPLETE && !t.FILLING && t.mem.RAW == blockA) = true := by decide

/-- Vector MC1, one of its turns: a DoublePress takes Idle to Scope, and the entry commands go on the agenda. -/
theorem test_step_host_enters_scope :
    gives (step { pressing ⟨0, 0, 0, false, .doublePress⟩ Button.reset with
        inbox := [.hostTurn], host := ⟨.idle, false, [.poll 0]⟩ }) (fun t =>
      t.host.MODE == .scope && t.host.agenda == [.issue .clrfrm, .issue .srestart, .issue (.evclr 0)]) = true := by
  decide

/-- Vector MC2: a Press of button 0 changes no mode and is still cleared. -/
theorem test_step_host_press_changes_no_mode :
    gives (step { pressing ⟨0, 0, 0, false, .press⟩ Button.reset with
        inbox := [.hostTurn], host := ⟨.idle, false, [.poll 0]⟩ }) (fun t =>
      t.host.MODE == .idle && t.host.agenda == [.issue (.evclr 0)]) = true := by decide

/-- R292: with a reading, no step and Scope after reset, the startup asks for SETREF, CLRFRM and SSTART, and a render
tick that came before it waits behind it. -/
theorem test_step_host_startup_comes_first :
    gives (step { idle with
        inbox := [.hostTurn], host := ⟨.scope, false, [.startup (some 1024) none, .handle .renderTick]⟩ }) (fun t =>
      t.host.agenda ==
        [.issue (.setref 1024), .issue .clrfrm, .issue .sstart, .handle .renderTick]) = true := by decide

/-! ### Witnesses: for each statement with hypotheses, a state and operands that meet them together -/

theorem witness_DecodeOfEncodeIsIdentity : (Instr.dbtick 3#16).wellFormed Config.cfgT = true := by decide

theorem witness_EncodeOfDecodeIsIdentity : decodeCmd Config.cfgT 0x10000003#32 = .ok (.dbtick 3#16) := by decide

theorem witness_StepRunsTheDecodedCommand :
    let s := { idle with inbox := [.command 0x01000000#32] }
    s.cfg.Valid ∧ s.inbox = .command 0x01000000#32 :: [] ∧ decodeCmd s.cfg 0x01000000#32 = .ok .produce := by decide

theorem witness_IllegalWordIsAnsweredAndChangesNothing :
    let s := { idle with inbox := [.command 0x10000004#32] }
    s.cfg.Valid ∧ s.inbox = .command 0x10000004#32 :: [] ∧ ∀ i, decodeCmd s.cfg 0x10000004#32 ≠ .ok i :=
  ⟨by decide, rfl, fun i h => by
    have e : decodeCmd Config.cfgT 0x10000004#32 = .error .levelOfAbsentButton := by decide
    exact absurd (e.symm.trans h) (by simp)⟩

theorem witness_SamplerStepWritesTheBlock :
    let s := { idle with FILLING := true, inbox := [.sampler blockA] }
    s.cfg.Valid ∧ s.mem.wf s.cfg ∧ s.inbox = .sampler blockA :: [] ∧ blockA.length = s.cfg.N ∧ s.FILLING = true := by
  decide

theorem witness_SamplerStepIsNotEnabledWhileIdle :
    let s := { idle with inbox := [.sampler blockA] }
    s.cfg.Valid ∧ s.inbox = .sampler blockA :: [] ∧ s.FILLING = false := by decide

theorem witness_NothingHappensWithoutInput : idle.cfg.Valid ∧ idle.inbox = [] := by decide

theorem witness_StepRefusesWhatIsNoMachineOrNoBlock :
    (¬ { idle with cfg := { Config.cfgT with DBL_WINDOW := 0 } }.cfg.Valid) ∧
    let s := { idle with FILLING := true, inbox := [.sampler []] }
    s.cfg.Valid ∧ s.inbox = .sampler [] :: [] ∧ s.FILLING = true ∧ ([] : List Sample).length ≠ s.cfg.N := by decide

theorem witness_ResetLeavesTheseValues : 3 < Config.cfgT.W ∧ 1 < Config.cfgT.NB ∧ 11 < Config.cfgT.N := by decide

theorem witness_ResetMeetsTheInvariant : Config.cfgT.Valid := by decide

theorem witness_EveryStepKeepsTheInvariant :
    ∃ t, { idle with inbox := [.command 0x01000000#32] }.Inv ∧
      step { idle with inbox := [.command 0x01000000#32] } = .next t := ⟨_, idle_inv_with idle_inv.host _, rfl⟩

theorem witness_NoReachableStateIsStuck :
    { idle with inbox := [.sampler blockA, .command 0xFFFFFFFF#32] }.Inv ∧
    { idle with inbox := [.sampler blockA, .command 0xFFFFFFFF#32] }.InputsOk :=
  ⟨idle_inv_with idle_inv.host _, by intro x hx; simp at hx; rcases hx with rfl | rfl; exacts [rfl, trivial]⟩

theorem witness_EveryCommandCompletesWithAResponse : stateA.Inv := stateA_inv

/-- One witness a status: NOT_READY, ILLEGAL_CMD, BAD_INDEX. -/
theorem witness_NoOpStatusChangesNothing :
    (∃ t, exec .produce idle = .next t ∧ t.response = some ⟨.notReady, 0#32⟩) ∧
    (∃ t, exec (.dbtick 4#16) idle = .next t ∧ t.response = some ⟨.illegalCmd, 0#32⟩) ∧
    ∃ t, exec (.rdcur 4#16) idle = .next t ∧ t.response = some ⟨.badIndex, 0#32⟩ :=
  ⟨⟨_, rfl, rfl⟩, ⟨_, rfl, rfl⟩, ⟨_, rfl, rfl⟩⟩

/-- One witness a clause: the codes 1 to 5. -/
theorem witness_StatusesRaisedByEachCommand :
    (∃ t, exec .produce idle = .next t ∧ t.response = some ⟨.notReady, 0#32⟩) ∧
    (responseOf .produce idle).map (fun x => x.status.code) = some 1#4 ∧
    (responseOf (.setdec 0#16) idle).map (fun x => x.status.code) = some 2#4 ∧
    (responseOf .produce stateA).map (fun x => x.status.code) = some 3#4 ∧
    (responseOf (.dbtick 4#16) idle).map (fun x => x.status.code) = some 4#4 ∧
    (responseOf (.evclr 2#8) idle).map (fun x => x.status.code) = some 5#4 :=
  ⟨⟨_, rfl, rfl⟩, by decide⟩

/-- One witness a clause: the register does change under its own command. -/
theorem witness_EachRegisterHasItsOwnWriters :
    gives (exec .produce stateA) (fun t =>
      t.mem.Y != stateA.mem.Y && t.mem.CUR != stateA.mem.CUR && t.RAW_MAX != stateA.RAW_MAX) = true ∧
    gives (exec .render frames) (fun t => t.mem.PRV != frames.mem.PRV && t.trace != frames.trace) = true ∧
    gives (exec (.setdec 2#16) idle) (fun t => t.DECIM != idle.DECIM) = true ∧
    gives (exec (.setref 2#16) idle) (fun t => t.REF != idle.REF) = true ∧
    gives (exec .sstart stateA) (fun t => t.COMPLETE != stateA.COMPLETE && t.FILLING != stateA.FILLING) = true ∧
    gives (exec (.dbtick 1#16) idle) (fun t => t.BTN != idle.BTN) = true := by decide

theorem witness_OnlyTheSamplerSetsCompleteAndWritesRaw :
    let s := { idle with FILLING := true, inbox := [.sampler blockA] }
    s.COMPLETE = false ∧
    gives (step s) (fun t => t.COMPLETE && t.mem.RAW != s.mem.RAW) = true := by decide

theorem witness_TraceOnlyGrowsAndConfigurationIsFixed :
    ∃ t, step { frames with inbox := [.command 0x02000000#32] } = .next t := ⟨_, rfl⟩

theorem witness_RoundingIsToNearestTiesUp : 0 < 2 := by decide

/-- Inside the range, below it, and above it. -/
theorem witness_SetdecClampsIntoRange :
    idle.cfg.Valid ∧ (1 ≤ (8#16).toNat ∧ (8#16).toNat ≤ idle.cfg.DECIM_MAX) ∧ ¬ 1 ≤ (0#16).toNat ∧
    ¬ (9#16).toNat ≤ idle.cfg.DECIM_MAX := by decide

theorem witness_ProduceIsGatedOnComplete : idle.COMPLETE = false ∧ idle.REF = 0#16 := by decide

theorem witness_ProduceRefusesStepZero :
    (holding blockA 0 0).COMPLETE = true ∧ (holding blockA 0 0).DECIM = 0#16 := by decide

theorem witness_ProduceCompletesAndItsFrame : stateA.Inv ∧ stateA.COMPLETE = true := ⟨stateA_inv, rfl⟩

theorem witness_ProduceRescalesEveryVisitedSample :
    stateA.Inv ∧ stateA.COMPLETE = true ∧ gives (exec .produce stateA) (fun t => decide (5 < t.DLEN.toNat)) = true :=
  ⟨stateA_inv, rfl, by decide⟩

theorem witness_RescalingIsAntitoneFromTheBaseline : Config.cfgT.Valid ∧ 7 ≤ 8 := by decide

theorem witness_ProduceTracksRawExtremes : stateA.Inv ∧ stateA.COMPLETE = true ∧ ∃ t, exec .produce stateA = .next t :=
  ⟨stateA_inv, rfl, _, rfl⟩

theorem witness_ProduceAmplitudeFromTrueExtremes :
    (holding blockB 1 2048).Inv ∧ (holding blockB 1 2048).COMPLETE = true ∧
    ∃ t, exec .produce (holding blockB 1 2048) = .next t :=
  ⟨holding_inv (by decide) (by decide), rfl, _, rfl⟩

/-- Vectors B1 and A3: the same scale, spreads 1600 and 3200. -/
theorem witness_AmplitudeIsMonotoneInTheSpread :
    (holding blockB 1 0).Inv ∧ (holding blockA 1 0).Inv ∧ (holding blockA 1 0).cfg = (holding blockB 1 0).cfg ∧
    gives (exec .produce (holding blockB 1 0)) (fun t => decide (t.RAW_MAX.toNat - t.RAW_MIN.toNat = 1600)) = true ∧
    gives (exec .produce (holding blockA 1 0)) (fun t => decide (t.RAW_MAX.toNat - t.RAW_MIN.toNat = 3200)) = true :=
  ⟨holding_inv (by decide) (by decide), holding_inv (by decide) (by decide), rfl, by decide, by decide⟩

/-- An edge at the last index of the span (vector G2), and none (vector B2). -/
theorem witness_ProduceFindsTheFirstEdge :
    (holding blockG 1 0).Inv ∧ (holding blockB 1 2048).Inv ∧
    gives (exec .produce (holding blockG 1 0)) (fun t => t.TRIG == 7#16 && decide (7 + 4 < t.DLEN.toNat) &&
      decide (50 < (t.mem.read .Y 7).toNat) && decide ((t.mem.read .Y 8).toNat ≤ 50)) = true ∧
    gives (exec .produce (holding blockB 1 2048)) (fun t => t.TRIG == 0#16 &&
      (List.range 8).all fun i => !(isEdge 50 (t.mem.read .Y) i)) = true :=
  ⟨holding_inv (by decide) (by decide), holding_inv (by decide) (by decide), by decide, by decide⟩

/-- An element inside the sequence and the first one past its end (vector B4). -/
theorem witness_ProduceWindowsAndPads :
    (holding blockB 4 0).Inv ∧ (holding blockB 4 0).COMPLETE = true ∧
    gives (exec .produce (holding blockB 4 0)) (fun t =>
      decide (t.TRIG.toNat + 2 < t.DLEN.toNat) && decide (t.DLEN.toNat ≤ t.TRIG.toNat + 3)) = true :=
  ⟨holding_inv (by decide) (by decide), rfl, by decide⟩

/-- The nines of vector A1 replaced. -/
theorem witness_UnvisitedSamplesHaveNoInfluence :
    let raw : List Sample := [0, 1, 160, 2, 1600, 3, 3200, 4, 480, 5, 320, 6]
    stateA.Inv ∧ raw.length = stateA.cfg.N ∧
    (∀ j, j * stateA.DECIM.toNat < stateA.cfg.N → raw[j * stateA.DECIM.toNat]? = stateA.mem.RAW[j * stateA.DECIM.toNat]?) ∧
    ∃ t, exec .produce stateA = .next t :=
  ⟨stateA_inv, rfl, by
    intro j hj
    have hj' : j * 2 < 12 := hj
    have : j < 6 := by omega
    interval_cases j <;> rfl, _, rfl⟩

theorem witness_ProduceIsIdempotent : ∃ t, exec .produce stateA = .next t := ⟨_, rfl⟩

theorem witness_RenderErasesThenDrawsThenCopies : stateA.Inv ∧ 2 + 1 < stateA.cfg.W := ⟨stateA_inv, by decide⟩

theorem witness_RedrawShowsTheCurrentTrace : idle.mem.PRV = idle.mem.CUR ∧ ∃ t, exec .render idle = .next t :=
  ⟨rfl, _, rfl⟩

theorem witness_RepeatedRedrawChangesNoPixel :
    ∃ t₁ t₂ t₃, stateA.Inv ∧ exec .render stateA = .next t₁ ∧ exec .render t₁ = .next t₂ ∧ exec .render t₂ = .next t₃ :=
  ⟨_, _, _, stateA_inv, rfl, rfl, rfl⟩

theorem witness_FirstRedrawChangesNoPixel :
    ∃ t₁ t₂, stateA.Inv ∧ exec .render stateA = .next t₁ ∧ exec .render t₁ = .next t₂ :=
  ⟨_, _, stateA_inv, rfl, rfl⟩

theorem witness_ClrfrmSetsBothFramesToBaseline : frames.mem.wf frames.cfg := by decide

/-- The greatest legal level bitmap and the least illegal one. -/
theorem witness_DbtickStepsEveryButton :
    idle.BTN.length = idle.cfg.NB ∧ (3#16).toNat < 2 ^ idle.cfg.NB ∧ 2 ^ idle.cfg.NB ≤ (4#16).toNat := by decide

/-- Two states with another record of button 0, and two level bitmaps that agree on button 1. -/
theorem witness_ButtonsAreIndependent :
    let s := idle
    let s' := pressing ⟨2, 0, 0, false, .none⟩ Button.reset
    s'.cfg = s.cfg ∧ s.BTN.length = s.cfg.NB ∧ s'.BTN.length = s.cfg.NB ∧ 1 < s.cfg.NB ∧
    (2#16).toNat < 2 ^ s.cfg.NB ∧ (3#16).toNat < 2 ^ s.cfg.NB ∧
    s'.button 1 = s.button 1 ∧ (3#16).getLsbD 1 = (2#16).getLsbD 1 ∧
    gives (exec (.dbtick 2#16) s) (fun _ => true) = true ∧ gives (exec (.dbtick 3#16) s') (fun _ => true) = true := by
  decide

/-- One witness a clause: a long press, a short one, a long one that is counted, a window of one tick, a bounce. -/
theorem witness_ReleaseTickClassifiesThePress :
    (Config.cfgT.Valid ∧ (⟨5, 0, 0, false, .none⟩ : Button).Ok Config.cfgT) ∧
    ((⟨2, 0, 0, false, .none⟩ : Button).Ok Config.cfgT ∧ Config.cfgT.MIN_TH ≤ 2 ∧ 2 < Config.cfgT.LONG_TH ∧
      2 ≤ Config.cfgT.DBL_WINDOW) ∧
    ((⟨5, 2, 1, true, .none⟩ : Button).Ok Config.cfgT ∧ Config.cfgT.LONG_TH ≤ 5) ∧
    ({ Config.cfgT with DBL_WINDOW := 1 }.Valid ∧
      (⟨2, 1, 1, true, .none⟩ : Button).Ok { Config.cfgT with DBL_WINDOW := 1 }) ∧
    ((⟨1, 1, 1, true, .none⟩ : Button).Ok Config.cfgT ∧ 1 < Config.cfgT.MIN_TH) := by
  refine ⟨⟨?_, ?_⟩, ⟨?_, ?_⟩, ⟨?_, ?_⟩, ⟨?_, ?_⟩, ?_, ?_⟩ <;>
    first | decide | exact ⟨by decide, by decide, by decide, by decide, by decide⟩

/-- One witness a clause: no window, a window of two ticks, the last tick of one after one press and after two. -/
theorem witness_AssertedTickCountsAndRunsTheWindow :
    Config.cfgT.Valid ∧ (⟨8, 0, 0, false, .press⟩ : Button).Ok Config.cfgT ∧
    (⟨1, 1, 2, true, .none⟩ : Button).Ok Config.cfgT ∧ (⟨1, 1, 1, true, .none⟩ : Button).Ok Config.cfgT ∧
    (⟨1, 2, 1, true, .none⟩ : Button).Ok Config.cfgT := by
  refine ⟨?_, ?_, ?_, ?_, ?_⟩ <;> first | decide | exact ⟨by decide, by decide, by decide, by decide, by decide⟩

theorem witness_IdleReleasedTickRunsTheWindowOnly : (⟨0, 1, 3, true, .none⟩ : Button).DUR = 0#16 := by decide

/-- A long press, and for each case of the last clause a record that is none. -/
theorem witness_AtMostOneEventPerTick :
    let r : Button := ⟨5, 0, 0, false, .press⟩
    (r.Ok Config.cfgT ∧ 0 < r.DUR.toNat ∧ Config.cfgT.LONG_TH ≤ r.DUR.toNat ∧ r.SEEN = false) ∧
    (Button.reset.Ok Config.cfgT ∧ Button.reset.DUR.toNat = 0) ∧
    ((⟨4, 0, 0, false, .press⟩ : Button).Ok Config.cfgT ∧ 4 < Config.cfgT.LONG_TH) ∧
    (⟨5, 1, 2, true, .press⟩ : Button).Ok Config.cfgT := by
  refine ⟨⟨?_, ?_⟩, ⟨?_, ?_⟩, ⟨?_, ?_⟩, ?_⟩ <;> first | decide | exact ⟨by decide, by decide, by decide, by decide, by decide⟩

/-- Vector DB1: the press, and released up to and over the end of the window. -/
theorem witness_ShortestPressGivesOnePress :
    let words : List (BitVec 16) := [1, 1, 0, 0, 0, 0]
    idle.Inv ∧ 0 < idle.cfg.NB ∧ (idle.button 0).IdleNoEvent ∧ idle.cfg.MIN_TH < idle.cfg.LONG_TH ∧
    (∀ w ∈ words, w.toNat < 2 ^ idle.cfg.NB) ∧
    words.map (fun w => w.getLsbD 0) = List.replicate idle.cfg.MIN_TH true ++ List.replicate 4 false :=
  ⟨idle_inv, by decide, rfl, by decide, all_lt (by decide), by decide⟩

/-- Vector DB3: the greatest separation that still counts, with button 1 held throughout. -/
theorem witness_TwoPressesInTheWindowGiveDoublePress :
    let words : List (BitVec 16) := [3, 3, 2, 3, 3, 2, 2, 2, 2]
    idle.Inv ∧ 0 < idle.cfg.NB ∧ (idle.button 0).IdleNoEvent ∧ idle.cfg.MIN_TH ≤ 2 ∧ 2 < idle.cfg.LONG_TH ∧
    1 + 2 ≤ idle.cfg.DBL_WINDOW - 1 ∧ (∀ w ∈ words, w.toNat < 2 ^ idle.cfg.NB) ∧
    words.map (fun w => w.getLsbD 0) =
      List.replicate 2 true ++ List.replicate 1 false ++ List.replicate 2 true ++ List.replicate 4 false :=
  ⟨idle_inv, by decide, rfl, by decide, by decide, by decide, all_lt (by decide), by decide⟩

/-- Vector DB4. -/
theorem witness_LongPressIsEmittedAtRelease :
    let words : List (BitVec 16) := [1, 1, 1, 1, 1, 0, 0]
    idle.Inv ∧ 0 < idle.cfg.NB ∧ (idle.button 0).IdleNoEvent ∧ idle.cfg.LONG_TH ≤ 5 ∧
    (∀ w ∈ words, w.toNat < 2 ^ idle.cfg.NB) ∧
    words.map (fun w => w.getLsbD 0) = List.replicate 5 true ++ List.replicate 2 false :=
  ⟨idle_inv, by decide, rfl, by decide, all_lt (by decide), by decide⟩

/-- The last button and the first that does not exist, and each of the four events. -/
theorem witness_EvrdReadsWithoutClearing :
    (1#8).toNat < idle.cfg.NB ∧ idle.cfg.NB ≤ (2#8).toNat ∧ (idle.button 1).EV = .none ∧
    ((pressing Button.reset ⟨0, 0, 0, false, .press⟩).button 1).EV = .press ∧
    ((pressing Button.reset ⟨0, 0, 0, false, .doublePress⟩).button 1).EV = .doublePress ∧
    ((pressing Button.reset ⟨0, 0, 0, false, .longPress⟩).button 1).EV = .longPress := by decide

theorem witness_EvclrClearsOneEvent :
    idle.BTN.length = idle.cfg.NB ∧ (1#8).toNat < idle.cfg.NB ∧ idle.cfg.NB ≤ (2#8).toNat := by decide

/-- The last button's three addresses, and the ends of the unimplemented ranges; the eight fixed addresses are
numerals. -/
theorem witness_RdregReadsTheRegisterMap :
    idle.cfg.Valid ∧ 1 < idle.cfg.NB ∧ (0x11#8).toNat = 0x10 + 1 ∧ (0x21#8).toNat = 0x20 + 1 ∧
    (0x31#8).toNat = 0x30 + 1 ∧
    [0x08#8, 0x0F#8, 0x12#8, 0x1F#8, 0x22#8, 0x2F#8, 0x32#8, 0x3F#8, 0x40#8, 0xFF#8].all (fun a =>
      decide (0x08 ≤ a.toNat) && (List.range idle.cfg.NB).all fun b =>
        decide (a.toNat ≠ 0x10 + b ∧ a.toNat ≠ 0x20 + b ∧ a.toNat ≠ 0x30 + b)) = true := by decide

theorem witness_RdcurAndRdprvReadOneElement :
    (3#16).toNat < frames.cfg.W ∧ frames.cfg.W ≤ (4#16).toNat := by decide

/-- One agenda a clause: the three stimuli, the startup with and without a reading and a step, and a command. -/
theorem witness_HostTurnDoesTheNextAction :
    let s (l : List HostAction) : State := { idle with inbox := [.hostTurn], host := ⟨.scope, false, l⟩ }
    (s []).cfg.Valid ∧ (s []).inbox = .hostTurn :: [] ∧
    (s [.handle .renderTick]).host.agenda = .handle .renderTick :: [] ∧
    (s [.handle (.debounceTick 3)]).host.agenda = .handle (.debounceTick 3) :: [] ∧
    (s [.handle (.encoder 0)]).host.agenda = .handle (.encoder 0) :: [] ∧
    (s [.startup (some 1) (some 2)]).host.agenda = .startup (some 1) (some 2) :: [] ∧
    (s [.startup none none]).host.agenda = .startup none none :: [] ∧
    (Instr.dbtick 3).wellFormed (s []).cfg = true ∧ (s [.issue (.dbtick 3)]).host.agenda = .issue (.dbtick 3) :: [] := by
  decide

/-- With a completed block and without. -/
theorem witness_HostRestartsAfterConsuming :
    { idle with host := ⟨.scope, false, [.produceFrame]⟩, inbox := [.hostTurn] }.Inv ∧ idle.COMPLETE = false ∧
    { stateA with host := ⟨.scope, false, [.produceFrame]⟩, inbox := [.hostTurn] }.Inv ∧ stateA.COMPLETE = true :=
  ⟨idle_inv_with (host_ok_one (by simp)) _, rfl,
    ⟨stateA_inv.cfg, stateA_inv.mem, stateA_inv.cur, stateA_inv.prv, stateA_inv.decim_pos, stateA_inv.decim_max,
      stateA_inv.flags, stateA_inv.buttons, stateA_inv.button, stateA_inv.dlen, stateA_inv.trig, stateA_inv.extremes,
      stateA_inv.response, host_ok_one (by simp)⟩, rfl⟩

/-- Button `b` about to be polled in mode `m`, with the events of the two buttons. -/
def polling (b : Nat) (m : Mode) (e₀ e₁ : Event) : State :=
  { pressing { Button.reset with EV := e₀ } { Button.reset with EV := e₁ } with
    inbox := [.hostTurn], host := ⟨m, false, [.poll b]⟩ }

theorem polling_inv (b : Nat) (m : Mode) (e₀ e₁ : Event) : (polling b m e₀ e₁).Inv :=
  have ok : ∀ e : Event, { Button.reset with EV := e }.Ok Config.cfgT := fun _ =>
    have h := Button.reset_ok Config.cfgT
    ⟨h.dur, h.cnt, h.win, h.armed, h.counted⟩
  have h := pressing_inv (ok e₀) (ok e₁)
  ⟨h.cfg, h.mem, h.cur, h.prv, h.decim_pos, h.decim_max, h.flags, h.buttons, h.button, h.dlen, h.trig, h.extremes,
    h.response, host_ok_one (by simp)⟩

/-- One state a clause: no event, a mode switch from Idle, the pause event in Scope mode, and the pause event outside
it. -/
theorem witness_HostPollDispatchesTheEvent :
    (∀ b m e₀ e₁, (polling b m e₀ e₁).Inv ∧ (polling b m e₀ e₁).inbox = .hostTurn :: [] ∧
      (polling b m e₀ e₁).host.agenda = .poll b :: []) ∧
    1 < Config.cfgT.NB ∧
    ((polling 1 .scope .none .none).button 1).EV = .none ∧
    (0 = Config.cfgT.MODE_BTN ∧ ((polling 0 .idle .doublePress .none).button 0).EV = .doublePress) ∧
    (1 ≠ Config.cfgT.MODE_BTN ∧ 1 = Config.cfgT.PAUSE_BTN ∧
      ((polling 1 .scope .none .press).button 1).EV = Config.cfgT.PAUSE_KIND) ∧
    (polling 1 .idle .none .press).host.MODE ≠ .scope :=
  ⟨fun b m e₀ e₁ => ⟨polling_inv b m e₀ e₁, rfl, rfl⟩, by decide⟩

/-- One state a clause: a mode that changes, a flag that changes, a startup to come, and none. -/
theorem witness_HostChangesOnlyByItsRules :
    gives (step (polling 0 .idle .doublePress .none)) (fun t => t.host.MODE != .idle) = true ∧
    gives (step (polling 1 .scope .none .press)) (fun t => t.host.PAUSED) = true ∧
    (polling 1 .scope .none .press).host.PAUSED = false ∧
    (idle.host.agenda = .startup none none :: [] ∧ gives (step idle) (fun _ => true) = true) ∧
    ∀ r d, HostAction.startup r d ∉ (polling 1 .scope .none .press).host.agenda :=
  ⟨by decide, by decide, rfl, ⟨rfl, by decide⟩, by simp [polling]⟩

end Sys2Proof.Tests
end

