-- ==== Sys2Proof/Proofs/Rounding.lean ====
section
/-! The rounding of `00_scope.md` R12: the model's division of naturals against the exact rational. -/

namespace Sys2Proof.Machine

/-- Over the common denominator `2q`, adding one half to `p/q` adds `q` to the numerator `2p`. -/
theorem div_add_half_eq_natCast_div (p : Nat) {q : Nat} (hq : 0 < q) :
    (p : ℚ) / q + 1 / 2 = ((2 * p + q : Nat) : ℚ) / ((2 * q : Nat) : ℚ) := by
  have hq' : (q : ℚ) ≠ 0 := Nat.cast_ne_zero.mpr hq.ne'
  push_cast
  field_simp

/-- The floor of that one fraction is the division of naturals that `rnd` is. -/
theorem rnd_eq_roundHalfUp (p : Nat) {q : Nat} (hq : 0 < q) : rnd p q = roundHalfUp ((p : ℚ) / q) := by
  rw [roundHalfUp, div_add_half_eq_natCast_div p hq, Nat.floor_div_eq_div, rnd]

/-- Settles O22: `p/q + 1/2` written as one fraction of naturals, whose floor is their quotient. -/
theorem roundingIsToNearestTiesUp : Obligations.RoundingIsToNearestTiesUp :=
  fun p _ hq => rnd_eq_roundHalfUp p hq

end Sys2Proof.Machine
end

