-- ==== Sys2Proof/Proofs/Produced.lean ====
section
/-! What a PRODUCE that is carried out leaves (`40_acquisition.md` R123), as numbers and element by element: nothing is
cut off by the widths of the registers, and the frame stays within `0 .. H`. -/

namespace Sys2Proof.Machine

@[simp] theorem produced_mem_RAW (s : State) : (produced s).mem.RAW = s.mem.RAW := rfl

@[simp] theorem produced_mem_PRV (s : State) : (produced s).mem.PRV = s.mem.PRV := rfl

theorem decimatedLength_le {s : State} (hd : 1 ≤ s.DECIM.toNat) : decimatedLength s ≤ s.cfg.N := ceilDiv_le hd

theorem decimatedLength_pos {s : State} (hN : 1 ≤ s.cfg.N) (hd : 1 ≤ s.DECIM.toNat) : 1 ≤ decimatedLength s :=
  ceilDiv_pos hN hd

/-- The sequence `Y` as PRODUCE leaves it, with the frame not yet written. -/
def rescaled (s : State) : Memory :=
  s.mem.fill .Y (decimatedLength s) fun j => screenOffset s.cfg (scaleOf s.cfg s.REF) (visited s j)

theorem produced_mem (s : State) :
    (produced s).mem = (rescaled s).fill .CUR s.cfg.W (windowed s.cfg ((rescaled s).read .Y) (decimatedLength s)
      (triggerIndex s.cfg ((rescaled s).read .Y) (decimatedLength s))) := rfl

theorem rescaled_read_Y {s : State} (hY : s.mem.Y.length = s.cfg.N) (hd : 1 ≤ s.DECIM.toNat) {j : Nat}
    (hj : j < decimatedLength s) :
    (rescaled s).read .Y j = screenOffset s.cfg (scaleOf s.cfg s.REF) (visited s j) := by
  have hjY : j < (s.mem.buffer .Y).length := (hj.trans_le (decimatedLength_le hd)).trans_eq hY.symm
  rw [rescaled, read_fill_same hjY, if_pos hj]

theorem produced_DLEN_toNat {s : State} (hN : s.cfg.N ≤ 65535) (hd : 1 ≤ s.DECIM.toNat) :
    (produced s).DLEN.toNat = decimatedLength s :=
  Nat.mod_eq_of_lt (by have := decimatedLength_le hd; omega)

theorem produced_RAW_MIN_toNat (s : State) :
    (produced s).RAW_MIN.toNat = lowest (visited s) (decimatedLength s) :=
  Nat.mod_eq_of_lt (by have := lowest_le_start (visited s) (decimatedLength s); omega)

theorem produced_RAW_MAX_toNat (s : State) :
    (produced s).RAW_MAX.toNat = highest (visited s) (decimatedLength s) :=
  Nat.mod_eq_of_lt (by
    have := highest_le_of_forall (f := visited s) (n := decimatedLength s) fun j _ => visited_le s j
    omega)

theorem produced_TRIG_toNat {s : State} (hN : s.cfg.N ≤ 65535) (hd : 1 ≤ s.DECIM.toNat) :
    (produced s).TRIG.toNat = triggerIndex s.cfg ((rescaled s).read .Y) (decimatedLength s) :=
  have hL := decimatedLength_le hd
  have ht := triggerIndex_le s.cfg ((rescaled s).read .Y) (decimatedLength s)
  Nat.mod_eq_of_lt (Nat.lt_of_le_of_lt ht (by omega))

theorem screenOffset_toNat_le {c : Cfg} (hH : c.H ≤ 65535) (q : Ratio) (r : Nat) :
    (screenOffset c q r).toNat ≤ c.H := by
  rw [screenOffset_toNat hH]
  exact Nat.sub_le _ _

/-- An element of the frame is an offset of the sequence, or the baseline past its end (R127, R131). -/
theorem windowed_toNat_le {c : Cfg} {y : Nat → Sample} {L : Nat} (hH : c.H ≤ 65535)
    (hy : ∀ j, j < L → (y j).toNat ≤ c.H) (t k : Nat) : (windowed c y L t k).toNat ≤ c.H := by
  unfold windowed
  split
  · exact hy _ ‹_›
  · exact (base_toNat hH).le

end Sys2Proof.Machine
end

