-- ==== Sys2Proof/Proofs/Invariant.lean ====
section
/-! The invariant `State.Inv`: at reset, over each command, over the Sampler's step, for the reference host, and so over
every step (`10_state.md` R21 to R31, `70_reset_and_hazards.md` R292). -/

namespace Sys2Proof.Machine

/-! ### Reset (R50) -/

theorem getD_map_range {α : Type} {n i : Nat} (f : Nat → α) (d : α) (hi : i < n) :
    ((List.range n).map f).getD i d = f i := by simp [List.getD_eq_getElem?_getD, hi]

/-- Settles O12: the registers by computation, the elements and the records by reading the reset lists. -/
theorem resetLeavesTheseValues : Obligations.ResetLeavesTheseValues := by
  intro c raw y reading step
  exact ⟨rfl, rfl, rfl, rfl, rfl, rfl, rfl, rfl, rfl,
    fun _ hk => ⟨List.getD_replicate _ hk, List.getD_replicate _ hk⟩,
    fun _ hb => List.getD_replicate _ hb,
    fun _ hi => ⟨getD_map_range _ _ hi, getD_map_range _ _ hi⟩⟩

theorem resetWith_host_ok (c : Cfg) (raw y : Nat → Sample) (reading step : Option (BitVec 16)) :
    (State.resetWith c raw y reading step).host.Ok c :=
  ⟨fun _ _ h => (List.not_mem_nil h).elim, fun _ _ _ => ⟨rfl, rfl⟩⟩

theorem resetWith_inv {c : Cfg} (hc : c.Valid) (raw y : Nat → Sample) (reading step : Option (BitVec 16)) :
    (State.resetWith c raw y reading step).Inv := by
  have ⟨_, _, hH, _, _, _, hD, _⟩ := hc
  have frame : ∀ v ∈ List.replicate c.W c.BASE, v.toNat ≤ c.H := fun v hv => by
    rw [List.eq_of_mem_replicate hv, base_toNat hH.2]
  exact
    { cfg := hc
      mem := resetWith_mem_wf c raw y reading step
      cur := frame
      prv := frame
      decim_pos := Nat.le_refl 1
      decim_max := hD.1
      flags := by simp [State.resetWith]
      buttons := List.length_replicate
      button := fun r hr => by rw [List.eq_of_mem_replicate hr]; exact Button.reset_ok c
      dlen := Nat.zero_le _
      trig := Nat.zero_le _
      extremes := Nat.le_refl _
      response := fun x hx => by cases hx
      host := resetWith_host_ok c raw y reading step }

/-- Settles O13: `resetWith_inv`, and the host as reset leaves it by computation. -/
theorem resetMeetsTheInvariant : Obligations.ResetMeetsTheInvariant :=
  ⟨fun _ raw y reading step hc => ⟨resetWith_inv hc raw y reading step, rfl, rfl, rfl⟩, rfl⟩

/-! ### The writes of the commands -/

/-- A completion keeps the invariant, if its data is 0 when the command was not carried out (R92). -/
theorem State.Inv.complete {s : State} (h : s.Inv) {st : Status} {d : BitVec 32}
    (hd : st.carriedOut = false → d = 0#32) : (s.complete st d).Inv :=
  { h with response := fun x hx hc => by cases hx; exact hd hc }

/-- Any other inputs, and any host that is itself as it should be. -/
theorem State.Inv.with_host {s : State} (h : s.Inv) {x : ModeController} (hx : x.Ok s.cfg) (y : List Input) :
    { s with host := x, inbox := y }.Inv :=
  { h with host := hx }

/-- A fill of any buffer, if what it writes into a frame is within `0 .. H` (R31). -/
theorem State.Inv.fill {s : State} (h : s.Inv) (S : Space) (n : Nat) {f : Nat → Sample}
    (hf : S = .CUR ∨ S = .PRV → ∀ i, i < n → i < s.cfg.W → (f i).toNat ≤ s.cfg.H) :
    { s with mem := s.mem.fill S n f }.Inv := by
  obtain ⟨-, -, hCUR, hPRV⟩ := h.mem
  have hwf := fill_keeps_wf h.mem S n f
  cases S with
  | RAW => exact { h with mem := hwf }
  | Y => exact { h with mem := hwf }
  | CUR =>
    exact { h with
      mem := hwf
      cur := forall_mem_writeFirst (fun i hi hn => hf (.inl rfl) i hn (hCUR ▸ hi)) h.cur }
  | PRV =>
    exact { h with
      mem := hwf
      prv := forall_mem_writeFirst (fun i hi hn => hf (.inr rfl) i hn (hPRV ▸ hi)) h.prv }

theorem State.Inv.emit {s : State} (h : s.Inv) (ls : List Line) : (s.emit ls).Inv := { h with }

theorem clampStep_toNat {c : Cfg} (hD : c.DECIM_MAX ≤ 65535) (imm : BitVec 16) :
    (clampStep c imm).toNat = min (max imm.toNat 1) c.DECIM_MAX :=
  Nat.mod_eq_of_lt (by omega)

theorem State.Inv.setdec {s : State} (h : s.Inv) (imm : BitVec 16) :
    { s with DECIM := clampStep s.cfg imm }.Inv := by
  obtain ⟨-, -, -, -, -, -, ⟨hD, hD'⟩, -⟩ := h.cfg
  have e := clampStep_toNat hD' imm
  exact { h with
    decim_pos := by simp only [e]; omega
    decim_max := by simp only [e]; omega }

theorem State.Inv.setref {s : State} (h : s.Inv) (imm : BitVec 16) : { s with REF := imm }.Inv := { h with }

theorem State.Inv.startSampler {s : State} (h : s.Inv) : s.startSampler.Inv := { h with flags := by simp }

theorem State.Inv.clearComplete {s : State} (h : s.Inv) : s.clearComplete.Inv := { h with flags := by simp }

theorem State.Inv.sampled {s : State} (h : s.Inv) : s.sampled.Inv := { h with flags := by simp }

theorem State.Inv.dbtick {s : State} (h : s.Inv) (imm : BitVec 16) :
    { s with BTN := tickAll s.cfg imm s.BTN }.Inv :=
  { h with
    buttons := (length_tickAll _ _ _).trans h.buttons
    button := forall_mem_tickAll (fun _ l hr => Button.ok_tick h.cfg hr l) h.button }

/-- The invariant of a record says nothing of its event (R30). -/
theorem Button.Ok.with_EV {c : Cfg} {r : Button} (h : r.Ok c) (ev : Event) : { r with EV := ev }.Ok c := { h with }

theorem forall_mem_modify {α : Type} {p : α → Prop} {l : List α} (h : ∀ v ∈ l, p v) (n : Nat) {f : α → α}
    (hf : ∀ v, p v → p (f v)) : ∀ v ∈ l.modify n f, p v := by
  intro v hv
  obtain ⟨i, hi, rfl⟩ := List.getElem_of_mem hv
  rw [List.getElem_modify]
  split
  · exact hf _ (h _ (List.getElem_mem _))
  · exact h _ (List.getElem_mem _)

theorem State.Inv.evclr {s : State} (h : s.Inv) (b : Nat) :
    { s with BTN := s.BTN.modify b fun r => { r with EV := .none } }.Inv :=
  { h with
    buttons := (List.length_modify _ _ _).trans h.buttons
    button := forall_mem_modify h.button b fun _ hr => hr.with_EV .none }

/-- PRODUCE: the frame is within `0 .. H`, and the results are in their ranges (R21, R31). -/
theorem State.Inv.produced {s : State} (h : s.Inv) : (produced s).Inv := by
  obtain ⟨⟨hN, hN'⟩, -, ⟨-, hH⟩, -⟩ := h.cfg
  have hL := decimatedLength_pos hN h.decim_pos
  have hDLEN := produced_DLEN_toNat hN' h.decim_pos
  have offsets : ∀ j, j < decimatedLength s → ((rescaled s).read .Y j).toNat ≤ s.cfg.H := fun j hj => by
    rw [rescaled_read_Y h.mem.2.1 h.decim_pos hj]
    exact screenOffset_toNat_le hH _ _
  have frame : { s with mem := (Machine.produced s).mem }.Inv :=
    (h.fill .Y (decimatedLength s) (by simp)).fill .CUR s.cfg.W fun _ _ _ _ => windowed_toNat_le hH offsets _ _
  exact { frame with
    dlen := hDLEN.trans_le (decimatedLength_le h.decim_pos)
    trig := by
      rw [hDLEN, produced_TRIG_toNat hN' h.decim_pos]
      exact triggerIndex_le _ _ _
    extremes := by
      rw [produced_RAW_MIN_toNat, produced_RAW_MAX_toNat]
      exact (lowest_le hL).trans (le_highest hL) }

theorem State.Inv.render {s : State} (h : s.Inv) :
    { s.emit (renderLines s.cfg s.mem) with mem := s.mem.fill .PRV s.cfg.W (s.mem.read .CUR) }.Inv := by
  refine (h.emit _).fill .PRV s.cfg.W fun _ i _ hi => ?_
  have hiC : i < (s.mem.buffer .CUR).length := hi.trans_eq h.mem.2.2.1.symm
  rw [read_of_lt hiC]
  exact h.cur _ (List.getElem_mem hiC)

theorem State.Inv.clrfrm {s : State} (h : s.Inv) :
    { s with mem := (s.mem.fill .PRV s.cfg.W fun _ => s.cfg.BASE).fill .CUR s.cfg.W fun _ => s.cfg.BASE }.Inv := by
  obtain ⟨-, -, ⟨-, hH⟩, -⟩ := h.cfg
  have base := (base_toNat hH).le
  exact (h.fill .PRV s.cfg.W fun _ _ _ _ => base).fill .CUR s.cfg.W fun _ _ _ _ => base

/-! ### Commands, words and Sampler completions -/

theorem State.Inv.exec {s t : State} {i : Instr} (h : s.Inv) (he : exec i s = .next t) : t.Inv := by
  rcases exec_next_cases he with ⟨st, d, rfl, hd⟩ | ⟨-, -, -, st, hst, rfl⟩ | ⟨-, rfl⟩ | ⟨-, rfl⟩ |
    ⟨imm, st, -, hst, rfl⟩ | ⟨imm, -, rfl⟩ | ⟨-, rfl⟩ | ⟨-, rfl⟩ | ⟨imm, -, rfl⟩ | ⟨a, -, rfl⟩
  · exact h.complete hd
  · exact h.produced.complete fun _ => rfl
  · exact h.render.complete fun _ => rfl
  · exact h.clrfrm.complete fun _ => rfl
  · exact (h.setdec imm).complete (by simp [hst])
  · exact (h.setref imm).complete fun _ => rfl
  · exact h.startSampler.complete fun _ => rfl
  · exact h.clearComplete.complete fun _ => rfl
  · exact (h.dbtick imm).complete fun _ => rfl
  · exact (h.evclr a.toNat).complete fun _ => rfl

theorem State.Inv.issueWord {s t : State} {w : Word} (h : s.Inv) (he : issueWord w s = .next t) : t.Inv := by
  rcases issueWord_next_cases he with ⟨i, -, he⟩ | rfl
  · exact h.exec he
  · exact h.complete fun _ => rfl

theorem State.Inv.samplerStep {s t : State} {block : List Sample} (h : s.Inv)
    (he : samplerStep block s = .next t) : t.Inv := by
  rcases samplerStep_next_cases he with ⟨-, rfl⟩ | ⟨-, -, rfl⟩
  · exact h
  · exact h.sampled.fill .RAW s.cfg.N (by simp)

/-! ### The reference host (R292, `44_mode_controller.md` R247) -/

/-- A stimulus at the end of the agenda leaves a startup at its head, and puts none behind it. -/
theorem ModeController.Ok.append_handle {c : Cfg} {x : ModeController} (h : x.Ok c) (e : Stimulus) :
    { x with agenda := x.agenda ++ [HostAction.handle e] }.Ok c := by
  obtain ⟨mode, paused, agenda⟩ := x
  cases agenda with
  | nil => exact ⟨by simp, by simp⟩
  | cons a later => exact ⟨by simpa using h.once, by simpa using h.fresh⟩

/-- Once the head of the agenda is taken off, no startup is left: actions put in its place bring none. -/
theorem ModeController.Ok.of_action_taken {c : Cfg} {x x' : ModeController} (h : x.Ok c) {a : HostAction}
    {later pre : List HostAction} (ha : x.agenda = a :: later) (ha' : x'.agenda = pre ++ later)
    (hpre : ∀ r d, HostAction.startup r d ∉ pre) : x'.Ok c := by
  have gone : ∀ r d, HostAction.startup r d ∉ x'.agenda := fun r d hm => by
    rcases List.mem_append.mp (ha' ▸ hm) with hm | hm
    · exact hpre r d hm
    · exact h.once r d (by rw [ha]; exact hm)
  exact ⟨fun r d hm => gone r d (List.mem_of_mem_tail hm),
    fun r d hm => (gone r d (List.mem_of_mem_head? hm)).elim⟩

theorem step_keeps_host_ok {s t : State} (hs : s.host.Ok s.cfg) (h : step s = .next t) : t.host.Ok s.cfg := by
  rcases step_host_cases h with e | ⟨ev, e⟩ | ⟨_, a, later, pre, -, ha, ha', hpre, -⟩
  · rw [e]; exact hs
  · rw [e]; exact hs.append_handle ev
  · exact hs.of_action_taken ha ha' hpre

/-! ### Every step -/

/-- Settles O14: a step is nothing, a word on the port or a Sampler completion, each of which keeps the invariant up to
the host, and the host's own part is kept by its moves. -/
theorem everyStepKeepsTheInvariant : Obligations.EveryStepKeepsTheInvariant := by
  intro s t hs h
  have hhost := step_keeps_host_ok hs.host h
  obtain ⟨-, x, y, ⟨x', rfl⟩ | ⟨w, u, x', hu, rfl⟩ | ⟨block, -, hb⟩⟩ := step_next_cases h
  · exact hs.with_host hhost y
  · rw [issueWord_with_host] at hu
    obtain ⟨v, hv, rfl⟩ := andThen_next hu
    exact (hs.issueWord hv).with_host ((issueWord_keeps_host hv).2.2 ▸ hhost) y
  · exact (hs.with_host hs.host y).samplerStep hb

end Sys2Proof.Machine
end

