-- ==== Sys2Proof/Proofs/CommandPort.lean ====
section
/-! A word on the command port (`10_state.md` R24, `30_encoding.md` R94). -/

namespace Sys2Proof.Machine

/-- A valid configuration lets the next input, a word, onto the port (R24). -/
theorem step_of_command {s : State} {w : Word} {rest : List Input} (hc : s.cfg.Valid)
    (hin : s.inbox = .command w :: rest) : step s = issueWord w { s with inbox := rest } := by
  simp only [step, oneStep, if_pos hc, takeInput, hin, deliver]

/-- A word that decodes runs its command (`30_encoding.md` R94). -/
theorem issueWord_of_decodeCmd {w : Word} {s : State} {i : Instr} (h : decodeCmd s.cfg w = .ok i) :
    issueWord w s = exec i s := by
  simp only [issueWord, h]

/-- Settles O6: the word is taken off the inbox and put on the port, which runs what it decodes to. -/
theorem stepRunsTheDecodedCommand : Obligations.StepRunsTheDecodedCommand := by
  intro s w rest i hc hin hd
  rw [step_of_command hc hin]
  exact issueWord_of_decodeCmd hd

end Sys2Proof.Machine
end

