-- ==== Sys2Proof/Proofs/Writers.lean ====
section
/-! Which command, and which step, can write what (`10_state.md` R21, R24, R25; `20_memory.md` R60, R67). -/

namespace Sys2Proof.Machine

/-! ### Filling one buffer leaves the others -/

@[simp] theorem fill_CUR_RAW (m : Memory) (n : Nat) (f : Nat → Sample) : (m.fill .CUR n f).RAW = m.RAW := rfl
@[simp] theorem fill_CUR_Y (m : Memory) (n : Nat) (f : Nat → Sample) : (m.fill .CUR n f).Y = m.Y := rfl
@[simp] theorem fill_PRV_RAW (m : Memory) (n : Nat) (f : Nat → Sample) : (m.fill .PRV n f).RAW = m.RAW := rfl
@[simp] theorem fill_PRV_Y (m : Memory) (n : Nat) (f : Nat → Sample) : (m.fill .PRV n f).Y = m.Y := rfl
@[simp] theorem fill_PRV_CUR (m : Memory) (n : Nat) (f : Nat → Sample) : (m.fill .PRV n f).CUR = m.CUR := rfl

/-! ### Commands -/

/-- Settles O19: each form that a command's answer can take differs from the state before in the fields of its own
command and the response alone. -/
theorem eachRegisterHasItsOwnWriters : Obligations.EachRegisterHasItsOwnWriters := by
  intro s t i h
  rcases exec_next_cases h with ⟨st, d, rfl, -⟩ | ⟨rfl, -, -, st, -, rfl⟩ | ⟨rfl, rfl⟩ | ⟨rfl, rfl⟩ |
    ⟨imm, st, rfl, -, rfl⟩ | ⟨imm, rfl, rfl⟩ | ⟨rfl | rfl, rfl⟩ | ⟨rfl, rfl⟩ | ⟨imm, rfl, rfl⟩ | ⟨a, rfl, rfl⟩
  all_goals simp

theorem exec_keeps_RAW {s t : State} {i : Instr} (h : exec i s = .next t) : t.mem.RAW = s.mem.RAW :=
  (eachRegisterHasItsOwnWriters s t i h).1

/-- The commands that write `COMPLETE` write 0 (`43_sampler_system.md` R211 to R213). -/
theorem exec_keeps_COMPLETE_false {s t : State} {i : Instr} (h : exec i s = .next t) (hs : s.COMPLETE = false) :
    t.COMPLETE = false := by
  rcases exec_next_cases h with ⟨st, d, rfl, -⟩ | ⟨-, -, -, st, -, rfl⟩ | ⟨-, rfl⟩ | ⟨-, rfl⟩ |
    ⟨imm, st, -, -, rfl⟩ | ⟨imm, -, rfl⟩ | ⟨-, rfl⟩ | ⟨-, rfl⟩ | ⟨imm, -, rfl⟩ | ⟨a, -, rfl⟩
  all_goals simp [hs]

theorem issueWord_keeps_RAW {w : Word} {s t : State} (h : issueWord w s = .next t) : t.mem.RAW = s.mem.RAW := by
  rcases issueWord_next_cases h with ⟨i, -, h⟩ | rfl
  · exact exec_keeps_RAW h
  · rfl

theorem issueWord_keeps_COMPLETE_false {w : Word} {s t : State} (h : issueWord w s = .next t)
    (hs : s.COMPLETE = false) : t.COMPLETE = false := by
  rcases issueWord_next_cases h with ⟨i, -, h⟩ | rfl
  · exact exec_keeps_COMPLETE_false h hs
  · exact hs

/-! ### Steps -/

/-- Settles O20: of the three things a step can be, no move of the host and no word on the port sets `COMPLETE` or
changes `RAW`, and a Sampler completion does so only while `FILLING = 1`. -/
theorem onlyTheSamplerSetsCompleteAndWritesRaw : Obligations.OnlyTheSamplerSetsCompleteAndWritesRaw := by
  intro s t h
  obtain ⟨-, x, y, ⟨x', rfl⟩ | ⟨w, u, x', hu, rfl⟩ | ⟨block, hin, hb⟩⟩ := step_next_cases h
  · simp +contextual
  · exact ⟨fun hs ht => by simp [issueWord_keeps_COMPLETE_false hu hs] at ht,
      fun hne => absurd (issueWord_keeps_RAW hu) hne⟩
  · rcases samplerStep_next_cases hb with ⟨-, rfl⟩ | ⟨hF, -, rfl⟩
    · simp +contextual
    · exact ⟨fun _ _ => ⟨hF, block, y, hin⟩, fun _ => ⟨hF, rfl, rfl, block, y, hin⟩⟩

end Sys2Proof.Machine
end

