-- ==== Sys2Proof/Proofs/RegisterMap.lean ====
section
/-! The register map as RDREG reads it (`10_state.md` R35, R37; `43_sampler_system.md` R215). -/

namespace Sys2Proof.Machine

/-! ### The packed values as numbers -/

theorem zext32_toNat {n : Nat} (hn : n ≤ 32) (v : BitVec n) : (zext32 v).toNat = v.toNat :=
  BitVec.toNat_setWidth_of_le hn

theorem toNat_append_eq_mul_add {m n : Nat} (x : BitVec m) (y : BitVec n) :
    (x ++ y).toNat = x.toNat * 2 ^ n + y.toNat := by
  rw [BitVec.toNat_append, ← Nat.shiftLeft_add_eq_or_of_lt y.isLt, Nat.shiftLeft_eq]

theorem State.statusWord_toNat (s : State) : s.statusWord.toNat = s.COMPLETE.toNat + 2 * s.FILLING.toNat := by
  rw [State.statusWord, zext32_toNat (by decide), toNat_append_eq_mul_add]
  simp only [flagBit, BitVec.toNat_ofBool]
  omega

theorem Button.flagWord_toNat (r : Button) :
    r.flagWord.toNat = r.CNT.toNat + 4 * r.SEEN.toNat + 16 * (eventCode r.EV).toNat := by
  rw [Button.flagWord, zext32_toNat (by decide)]
  simp only [toNat_append_eq_mul_add, flagBit, BitVec.toNat_ofBool, BitVec.toNat_ofNat]
  omega

/-! ### The addresses -/

theorem buttonRegister_eq_some {s : State} {base a b : Nat} (hb : b < s.cfg.NB) (ha : a = base + b)
    (f : Button → BitVec 32) : buttonRegister s base a f = some (f (s.button b)) := by
  subst ha
  simp [buttonRegister, hb]

theorem buttonRegister_eq_none {s : State} {base a : Nat} (h : ∀ b, b < s.cfg.NB → a ≠ base + b)
    (f : Button → BitVec 32) : buttonRegister s base a f = none := by
  refine if_neg fun ⟨h₁, h₂⟩ => h (a - base) ?_ ?_ <;> omega

/-- From 0x08 on, the map holds the per-button registers alone. -/
theorem readRegister_of_le (s : State) {a : BitVec 8} (ha : 0x08 ≤ a.toNat) :
    readRegister s a =
      ((buttonRegister s 0x10 a.toNat fun r => zext32 r.DUR) <|>
       (buttonRegister s 0x20 a.toNat fun r => zext32 r.WIN) <|>
       (buttonRegister s 0x30 a.toNat Button.flagWord)) := by
  unfold readRegister
  split
  case h_9 => rfl
  all_goals omega

theorem readRegister_BTN_DUR {s : State} {a : BitVec 8} {b : Nat} (hb : b < s.cfg.NB) (ha : a.toNat = 0x10 + b) :
    readRegister s a = some (zext32 (s.button b).DUR) := by
  rw [readRegister_of_le s (by omega), buttonRegister_eq_some hb ha]
  rfl

theorem readRegister_BTN_WIN {s : State} {a : BitVec 8} {b : Nat} (hNB : s.cfg.NB ≤ 16) (hb : b < s.cfg.NB)
    (ha : a.toNat = 0x20 + b) : readRegister s a = some (zext32 (s.button b).WIN) := by
  rw [readRegister_of_le s (by omega), buttonRegister_eq_none (base := 0x10) (fun _ _ => by omega),
    buttonRegister_eq_some hb ha]
  rfl

theorem readRegister_BTN_FLG {s : State} {a : BitVec 8} {b : Nat} (hNB : s.cfg.NB ≤ 16) (hb : b < s.cfg.NB)
    (ha : a.toNat = 0x30 + b) : readRegister s a = some (s.button b).flagWord := by
  rw [readRegister_of_le s (by omega), buttonRegister_eq_none (base := 0x10) (fun _ _ => by omega),
    buttonRegister_eq_none (base := 0x20) (fun _ _ => by omega), buttonRegister_eq_some hb ha]
  rfl

theorem readRegister_eq_none {s : State} {a : BitVec 8} (ha : 0x08 ≤ a.toNat)
    (h : ∀ b, b < s.cfg.NB → a.toNat ≠ 0x10 + b ∧ a.toNat ≠ 0x20 + b ∧ a.toNat ≠ 0x30 + b) :
    readRegister s a = none := by
  rw [readRegister_of_le s ha, buttonRegister_eq_none fun b hb => (h b hb).1,
    buttonRegister_eq_none fun b hb => (h b hb).2.1, buttonRegister_eq_none fun b hb => (h b hb).2.2]
  rfl

/-! ### RDREG -/

theorem exec_rdreg_of_some {s : State} {a : BitVec 8} {v : BitVec 32} (h : readRegister s a = some v) :
    exec (.rdreg a) s = .next (s.complete .ok v) := by
  simp only [exec, execRdreg, h, State.respond_eq]

theorem exec_rdreg_of_none {s : State} {a : BitVec 8} (h : readRegister s a = none) :
    exec (.rdreg a) s = .next (s.complete .badIndex 0#32) := by
  simp only [exec, execRdreg, h, State.raise_eq]

/-- Settles O54: the map's value at each address, as a number; from 0x08 on the three ranges of the buttons are disjoint,
because there are at most 16 buttons. -/
theorem rdregReadsTheRegisterMap : Obligations.RdregReadsTheRegisterMap := by
  intro s a hc reads ev
  obtain ⟨-, -, -, -, -, -, -, ⟨-, hNB⟩, -⟩ := hc
  have reads_of {v : BitVec 32} {n : Nat} (hv : v.toNat = n) (h : readRegister s a = some v) : reads n :=
    ⟨v, hv, exec_rdreg_of_some h⟩
  have reads16 {v : BitVec 16} (h : readRegister s a = some (zext32 v)) : reads v.toNat :=
    reads_of (zext32_toNat (by decide) v) h
  have ev_eq (b : Nat) : ev b = (eventCode (s.button b).EV).toNat := by
    simp only [ev]
    cases (s.button b).EV <;> rfl
  exact ⟨fun h => reads_of s.statusWord_toNat (h ▸ rfl),
    fun h => reads16 (h ▸ rfl), fun h => reads16 (h ▸ rfl),
    fun h => reads16 (h ▸ rfl), fun h => reads16 (h ▸ rfl),
    fun h => reads_of rfl (h ▸ rfl),
    fun h => reads16 (h ▸ rfl), fun h => reads16 (h ▸ rfl),
    fun b hb ha => reads16 (readRegister_BTN_DUR hb ha),
    fun b hb ha => reads16 (readRegister_BTN_WIN hNB hb ha),
    fun b hb ha => ev_eq b ▸ reads_of (s.button b).flagWord_toNat (readRegister_BTN_FLG hNB hb ha),
    fun ha h => exec_rdreg_of_none (readRegister_eq_none ha h)⟩

end Sys2Proof.Machine
end

