-- ==== Sys2Proof/Proofs/DisplayTrace.lean ====
section
/-! The display command trace is append-only (`20_memory.md` R77), and the configuration is fixed (`00_scope.md` R4). -/

namespace Sys2Proof.Machine

theorem exec_render (s : State) :
    exec .render s = .next (State.complete
      { s.emit (renderLines s.cfg s.mem) with mem := s.mem.fill .PRV s.cfg.W (s.mem.read .CUR) } .ok 0#32) := rfl

/-- Only RENDER changes the trace, and it appends its records (`41_frame_updater.md` R161). -/
theorem exec_appends_trace {s t : State} {i : Instr} (h : exec i s = .next t) : ∃ ls, t.trace = s.trace ++ ls := by
  obtain ⟨-, -, -, -, -, -, -, -, -, -, onlyRender, -⟩ := eachRegisterHasItsOwnWriters s t i h
  by_cases hkept : t.trace = s.trace
  · exact ⟨[], by simp [hkept]⟩
  · rw [onlyRender hkept, exec_render] at h
    cases h
    exact ⟨renderLines s.cfg s.mem, rfl⟩

theorem issueWord_appends_trace {w : Word} {s t : State} (h : issueWord w s = .next t) :
    ∃ ls, t.trace = s.trace ++ ls := by
  rcases issueWord_next_cases h with ⟨i, -, h⟩ | rfl
  · exact exec_appends_trace h
  · exact ⟨[], by simp⟩

theorem samplerStep_keeps_trace_cfg {block : List Sample} {s t : State} (h : samplerStep block s = .next t) :
    t.trace = s.trace ∧ t.cfg = s.cfg := by
  rcases samplerStep_next_cases h with ⟨-, rfl⟩ | ⟨-, -, rfl⟩ <;> exact ⟨rfl, rfl⟩

/-- Settles O21: of the three things a step can be, a word on the port appends to the trace, a move of the host and a
Sampler completion leave it, and none of them writes the configuration. -/
theorem traceOnlyGrowsAndConfigurationIsFixed : Obligations.TraceOnlyGrowsAndConfigurationIsFixed := by
  intro s t h
  obtain ⟨-, x, y, ⟨x', rfl⟩ | ⟨w, u, x', hu, rfl⟩ | ⟨block, -, hb⟩⟩ := step_next_cases h
  · exact ⟨⟨[], by simp⟩, rfl⟩
  · obtain ⟨-, -, hcfg⟩ := issueWord_keeps_host hu
    have hgrows := issueWord_appends_trace hu
    exact ⟨hgrows, hcfg⟩
  · obtain ⟨htrace, hcfg⟩ := samplerStep_keeps_trace_cfg hb
    exact ⟨⟨[], by simp [htrace]⟩, hcfg⟩

end Sys2Proof.Machine
end

