-- ==== Sys2Proof/Proofs/Encoding.lean ====
section
/-! Decoding and encoding agree (`30_encoding.md` R90 to R97): the checks of the decoder that need no configuration give
a command exactly for that command's own word. -/

namespace Sys2Proof

/-! ### The fields of a word as numbers (R90) -/

theorem opField_toNat (w : Word) : (opField w).toNat = w.toNat / 2 ^ 24 := by
  rw [opField, BitVec.extractLsb'_toNat, Nat.shiftRight_eq_div_pow]
  have := w.isLt
  omega

theorem aField_toNat (w : Word) : (aField w).toNat = w.toNat / 2 ^ 16 % 2 ^ 8 := by
  rw [aField, BitVec.extractLsb'_toNat, Nat.shiftRight_eq_div_pow]

theorem immField_toNat (w : Word) : (immField w).toNat = w.toNat % 2 ^ 16 := by
  rw [immField, BitVec.extractLsb'_toNat, Nat.shiftRight_zero]

theorem packWord_eq_iff {op a : BitVec 8} {imm : BitVec 16} {w : Word} :
    packWord op a imm = w ↔ op = opField w ∧ a = aField w ∧ imm = immField w := by
  constructor
  · rintro rfl
    exact ⟨(opField_packWord _ _ _).symm, (aField_packWord _ _ _).symm, (immField_packWord _ _ _).symm⟩
  · rintro ⟨rfl, rfl, rfl⟩
    exact packWord_fields w

/-! ### The rows of the opcode table (R95) -/

/-- The per-command laws of `Laws/PerInstr.lean`, as one. -/
theorem wordFields (i : Instr) : Laws.WordFields.Statement i := by
  cases i <;> exact Laws.WordFields.of_row _ rfl rfl

/-- A row read by its number is the row of the command it gives, whose operands are all that a word of the row holds
besides zeros. -/
theorem opcodeRow_eq_some {op a : BitVec 8} {imm : BitVec 16} {f : Format} {i : Instr}
    (h : opcodeRow op a imm = some (f, i)) :
    i.opcode = op ∧ i.format = f ∧ (unusedFieldsZero f a imm = true → i.aOperand = a ∧ i.immOperand = imm) := by
  unfold opcodeRow at h
  split at h <;> cases h
  all_goals
    refine ⟨BitVec.eq_of_toNat_eq (by simp [Instr.opcode, *]), rfl, fun hz => ?_⟩
    simp_all [unusedFieldsZero, Instr.aOperand, Instr.immOperand]

/-- The opcode alone selects the row, whatever the operand fields hold. -/
theorem opcodeRow_opcode (i : Instr) (a : BitVec 8) (imm : BitVec 16) :
    ∃ j, opcodeRow i.opcode a imm = some (i.format, j) := by
  cases i <;> exact ⟨_, rfl⟩

theorem format_eq_of_opcode_eq {i j : Instr} (h : j.opcode = i.opcode) : j.format = i.format := by
  obtain ⟨k, hk⟩ := opcodeRow_opcode i j.aOperand j.immOperand
  obtain ⟨-, -, -, -, hrow⟩ := wordFields j
  rw [h, hk] at hrow
  exact (congrArg Prod.fst (Option.some.inj hrow)).symm

/-! ### The decoder (R94) -/

theorem decode_eq_ok_iff_row {w : Word} {i : Instr} :
    decode w = .ok i ↔ ∃ f, opcodeRow (opField w) (aField w) (immField w) = some (f, i) ∧
      unusedFieldsZero f (aField w) (immField w) = true := by
  unfold decode
  rcases opcodeRow (opField w) (aField w) (immField w) with _ | ⟨f, j⟩
  · simp
  · by_cases hz : unusedFieldsZero f (aField w) (immField w) = true <;> simp [hz]

/-- The checks that need no configuration pass exactly the word of the command they give. -/
theorem decode_eq_ok_iff {w : Word} {i : Instr} : decode w = .ok i ↔ encode i = w := by
  rw [decode_eq_ok_iff_row]
  constructor
  · rintro ⟨f, hrow, hz⟩
    obtain ⟨hop, -, hoperands⟩ := opcodeRow_eq_some hrow
    obtain ⟨ha, himm⟩ := hoperands hz
    exact packWord_eq_iff.mpr ⟨hop, ha, himm⟩
  · rintro rfl
    obtain ⟨hop, ha, himm, hz, hrow⟩ := wordFields i
    rw [hop, ha, himm]
    exact ⟨i.format, hrow, hz⟩

/-- All of R94: the word of a well-formed command, and no other word, is that command. -/
theorem decodeCmd_eq_ok_iff {c : Cfg} {w : Word} {i : Instr} :
    decodeCmd c w = .ok i ↔ encode i = w ∧ i.wellFormed c = true := by
  rw [← decode_eq_ok_iff, decodeCmd]
  cases decode w with
  | error e => simp
  | ok j =>
    dsimp only
    split
    · exact ⟨fun h => ⟨h, by cases h; assumption⟩, And.left⟩
    · exact ⟨(nomatch ·), fun ⟨h, hwf⟩ => by cases h; contradiction⟩

/-- Settles O2: `decodeCmd_eq_ok_iff` for the command's own word. -/
theorem decodeOfEncodeIsIdentity : Obligations.DecodeOfEncodeIsIdentity :=
  fun _ _ hi => decodeCmd_eq_ok_iff.mpr ⟨rfl, hi⟩

/-- Settles O3: `decodeCmd_eq_ok_iff`, from the decoder to the encoder. -/
theorem encodeOfDecodeIsIdentity : Obligations.EncodeOfDecodeIsIdentity :=
  fun _ _ _ h => decodeCmd_eq_ok_iff.mp h

/-- Settles O1: ten words are those of their commands; the last two fail the check of the opcode and of `a`. -/
theorem decodeOfSampleWords : Obligations.DecodeOfSampleWords := by
  simp only [Obligations.DecodeOfSampleWords, decode_eq_ok_iff]
  exact ⟨rfl, rfl, rfl, rfl, rfl, rfl, rfl, rfl, rfl, rfl, rfl, rfl⟩

/-! ### The words that are commands, by the numbers in their fields -/

/-- No level bit from `NB` on is one of a number below `2^NB` (R94, last check). -/
theorem levelsLegal_iff {c : Cfg} {imm : BitVec 16} : levelsLegal c imm = true ↔ imm.toNat < 2 ^ c.NB := by
  rw [levelsLegal, beq_iff_eq, BitVec.toNat_eq, BitVec.toNat_ushiftRight, Nat.shiftRight_eq_div_pow,
    BitVec.toNat_ofNat, Nat.zero_mod, Nat.div_eq_zero_iff_lt (Nat.two_pow_pos _)]

/-- `op`, `a` and `imm` are the fields of the word of a command that is well formed under `c`. -/
def IsCommandFields (c : Cfg) (op a : BitVec 8) (imm : BitVec 16) : Prop :=
  ∃ i : Instr, i.opcode = op ∧ i.aOperand = a ∧ i.immOperand = imm ∧ i.wellFormed c = true

theorem exists_decodeCmd_iff {c : Cfg} {w : Word} :
    (∃ i, decodeCmd c w = .ok i) ↔ IsCommandFields c (opField w) (aField w) (immField w) := by
  simp only [decodeCmd_eq_ok_iff, encode, packWord_eq_iff, and_assoc, IsCommandFields]

theorem isCommandFields_iff {c : Cfg} {op a : BitVec 8} {imm : BitVec 16} :
    IsCommandFields c op a imm ↔
      (op.toNat ∈ [0x00, 0x01, 0x02, 0x03, 0x08, 0x09, 0x0A, 0x0B] ∧ a.toNat = 0 ∧ imm.toNat = 0) ∨
      (op.toNat ∈ [0x04, 0x05, 0x19, 0x1A] ∧ a.toNat = 0) ∨
      (op.toNat = 0x10 ∧ a.toNat = 0 ∧ imm.toNat < 2 ^ c.NB) ∨
      (op.toNat ∈ [0x11, 0x12, 0x18] ∧ imm.toNat = 0) := by
  constructor
  · rintro ⟨i, rfl, rfl, rfl, hwf⟩
    cases i
    case dbtick imm => exact .inr (.inr (.inl ⟨rfl, rfl, levelsLegal_iff.mp hwf⟩))
    all_goals simp [Instr.opcode, Instr.aOperand, Instr.immOperand]
  · have field {n : Nat} {v v' : BitVec n} (h : v.toNat = v'.toNat) : v' = v := (BitVec.eq_of_toNat_eq h).symm
    simp only [List.mem_cons, List.not_mem_nil, or_false]
    rintro (⟨hop, ha, himm⟩ | ⟨hop, ha⟩ | ⟨hop, ha, himm⟩ | ⟨hop, himm⟩)
    · rcases hop with h | h | h | h | h | h | h | h
      · exact ⟨.nop, field h, field ha, field himm, rfl⟩
      · exact ⟨.produce, field h, field ha, field himm, rfl⟩
      · exact ⟨.render, field h, field ha, field himm, rfl⟩
      · exact ⟨.clrfrm, field h, field ha, field himm, rfl⟩
      · exact ⟨.sstart, field h, field ha, field himm, rfl⟩
      · exact ⟨.srestart, field h, field ha, field himm, rfl⟩
      · exact ⟨.sclear, field h, field ha, field himm, rfl⟩
      · exact ⟨.spoll, field h, field ha, field himm, rfl⟩
    · rcases hop with h | h | h | h
      · exact ⟨.setdec imm, field h, field ha, rfl, rfl⟩
      · exact ⟨.setref imm, field h, field ha, rfl, rfl⟩
      · exact ⟨.rdcur imm, field h, field ha, rfl, rfl⟩
      · exact ⟨.rdprv imm, field h, field ha, rfl, rfl⟩
    · exact ⟨.dbtick imm, field hop, field ha, rfl, levelsLegal_iff.mpr himm⟩
    · rcases hop with h | h | h
      · exact ⟨.evrd a, field h, rfl, field himm, rfl⟩
      · exact ⟨.evclr a, field h, rfl, field himm, rfl⟩
      · exact ⟨.rdreg a, field h, rfl, field himm, rfl⟩

/-- Settles O4: a word is a command when its three fields are those of one, each command by its own row. -/
theorem legalWordsAreExactlyThese : Obligations.LegalWordsAreExactlyThese := by
  intro c w op a imm
  rw [exists_decodeCmd_iff, isCommandFields_iff, opField_toNat, aField_toNat, immField_toNat]

/-! ### The masks (R91) -/

/-- The mask of a format has ones in the opcode and in the fields that carry no operand. -/
theorem Format.mask_eq_packWord (f : Format) :
    f.mask = packWord (.allOnes 8) (if f = .A then 0#8 else .allOnes 8) (if f = .I then 0#16 else .allOnes 16) := by
  cases f <;> rfl

theorem packWord_and_packWord (op a op' a' : BitVec 8) (imm imm' : BitVec 16) :
    packWord op a imm &&& packWord op' a' imm' = packWord (op &&& op') (a &&& a') (imm &&& imm') :=
  calc packWord op a imm &&& packWord op' a' imm'
    _ = (op ++ a &&& op' ++ a') ++ (imm &&& imm') := BitVec.and_append
    _ = packWord (op &&& op') (a &&& a') (imm &&& imm') := by rw [BitVec.and_append, packWord]

theorem and_mask_eq_packWord_iff {f : Format} {op : BitVec 8} {w : Word} :
    w &&& f.mask = packWord op 0#8 0#16 ↔
      opField w = op ∧ unusedFieldsZero f (aField w) (immField w) = true := by
  conv_lhs => rw [← packWord_fields w, f.mask_eq_packWord, packWord_and_packWord, packWord_eq_iff,
    opField_packWord, aField_packWord, immField_packWord]
  cases f <;> simp [unusedFieldsZero, -BitVec.reduceAllOnes]

/-- Settles O5: under the mask of its format a word is the match word of a row exactly when it has the row's opcode and
zero in the fields without an operand, which is what the decoder checks of it. -/
theorem wordSelectsItsRowOnly : Obligations.WordSelectsItsRowOnly := by
  intro w i
  rw [and_mask_eq_packWord_iff]
  constructor
  · rintro ⟨hop, hz⟩
    obtain ⟨j, hrow⟩ := opcodeRow_opcode i (aField w) (immField w)
    have hop' := (opcodeRow_eq_some hrow).1
    exact ⟨j, decode_eq_ok_iff_row.mpr ⟨i.format, hop ▸ hrow, hz⟩, hop'⟩
  · rintro ⟨j, hj, hop⟩
    obtain ⟨f, hrow, hz⟩ := decode_eq_ok_iff_row.mp hj
    obtain ⟨hop', rfl, -⟩ := opcodeRow_eq_some hrow
    exact ⟨hop'.symm.trans hop, format_eq_of_opcode_eq hop ▸ hz⟩

end Sys2Proof
end

