-- ==== Sys2Proof/Proofs/Completion.lean ====
section
/-! How a command completes (`30_encoding.md` R92, `00_scope.md` R13), and the answer to a word that is none (R97). -/

namespace Sys2Proof.Machine

/-- PRODUCE is the one command with a refusal, of a step of 0 (`40_acquisition.md` R135 (k)). -/
theorem exec_completes {s : State} (hd : s.DECIM ≠ 0#16) (i : Instr) :
    ∃ u st d, exec i s = .next (State.complete u st d) := by
  cases i <;> simp only [exec]
  case produce =>
    rw [execProduce_eq, if_neg hd]
    split <;> exact ⟨_, _, _, rfl⟩
  case setdec imm => unfold execSetdec; dsimp only; split <;> exact ⟨_, _, _, rfl⟩
  case dbtick imm => unfold execDbtick; split <;> exact ⟨_, _, _, rfl⟩
  case evrd a => unfold execEvrd; split <;> exact ⟨_, _, _, rfl⟩
  case evclr a => unfold execEvclr; split <;> exact ⟨_, _, _, rfl⟩
  case rdreg a => unfold execRdreg; split <;> exact ⟨_, _, _, rfl⟩
  case rdcur k => unfold execRdcur; split <;> exact ⟨_, _, _, rfl⟩
  case rdprv k => unfold execRdprv; split <;> exact ⟨_, _, _, rfl⟩
  all_goals exact ⟨_, _, _, rfl⟩

theorem State.Inv.decim_ne_zero {s : State} (h : s.Inv) : s.DECIM ≠ 0#16 := fun e => by
  have := h.decim_pos
  simp [e] at this

/-- Settles O16: the invariant excludes the step of 0, without which every command completes. -/
theorem everyCommandCompletesWithAResponse : Obligations.EveryCommandCompletesWithAResponse := by
  intro s i hs
  obtain ⟨u, st, d, he⟩ := exec_completes hs.decim_ne_zero i
  exact ⟨u.complete st d, ⟨st, d⟩, he, rfl⟩

@[simp] theorem Status.carriedOut_ok : Status.ok.carriedOut = true := rfl

/-- The three statuses of R92's last sentence. -/
theorem Status.mem_noOp_iff {st : Status} :
    st ∈ [Status.notReady, .illegalCmd, .badIndex] ↔ st.carriedOut = false := by
  cases st <;> decide

/-- A command that was not carried out has only been answered, with data 0; every write comes with a status that says
it was carried out. -/
theorem exec_eq_complete_of_not_carriedOut {s t : State} {i : Instr} {x : Response} (h : exec i s = .next t)
    (hx : t.response = some x) (hno : x.status.carriedOut = false) :
    x.data = 0#32 ∧ t = s.complete x.status x.data := by
  rcases exec_next_cases h with ⟨st, d, rfl, hd⟩ | ⟨-, -, -, st, hst, rfl⟩ | ⟨-, rfl⟩ | ⟨-, rfl⟩ |
    ⟨imm, st, -, hst, rfl⟩ | ⟨imm, -, rfl⟩ | ⟨-, rfl⟩ | ⟨-, rfl⟩ | ⟨imm, -, rfl⟩ | ⟨a, -, rfl⟩ <;> cases hx
  · exact ⟨hd hno, rfl⟩
  all_goals simp [*] at hno

/-- Settles O17: the three statuses are those of a command that was not carried out. -/
theorem noOpStatusChangesNothing : Obligations.NoOpStatusChangesNothing :=
  fun _ _ _ _ h hx hst => exec_eq_complete_of_not_carriedOut h hx (Status.mem_noOp_iff.mp hst)

/-- A word that decodes to no command is answered, and nothing else (R97). -/
theorem issueWord_of_no_command {w : Word} {s : State} (h : ∀ i, decodeCmd s.cfg w ≠ .ok i) :
    issueWord w s = .next (s.complete .illegalCmd 0#32) := by
  unfold issueWord
  split
  · exact absurd ‹_› (h _)
  · rfl

/-- Settles O7: the word is taken off the inbox and put on the port, which answers it. -/
theorem illegalWordIsAnsweredAndChangesNothing : Obligations.IllegalWordIsAnsweredAndChangesNothing := by
  intro s w rest hc hin hno
  rw [step_of_command hc hin]
  exact issueWord_of_no_command hno

end Sys2Proof.Machine
end

