-- ==== Sys2Proof/Proofs/Acquisition.lean ====
section
/-! The operands of SETDEC and SETREF and the gate of PRODUCE (`40_acquisition.md` R121, R122, R124, R135). -/

namespace Sys2Proof.Machine

/-! ### SETDEC and SETREF -/

/-- Clamping leaves a step alone exactly when it is one of the valid steps. -/
theorem clampStep_eq_self_iff {c : Cfg} (hD : 1 ≤ c.DECIM_MAX) (hD' : c.DECIM_MAX ≤ 65535) {imm : BitVec 16} :
    clampStep c imm = imm ↔ 1 ≤ imm.toNat ∧ imm.toNat ≤ c.DECIM_MAX := by
  rw [← BitVec.toNat_inj, clampStep_toNat hD']
  omega

/-- SETDEC with its two statuses as one completion (R121). -/
theorem exec_setdec (s : State) (imm : BitVec 16) :
    exec (.setdec imm) s = .next (State.complete { s with DECIM := clampStep s.cfg imm }
      (if clampStep s.cfg imm = imm then .ok else .decimClamped) (zext32 (clampStep s.cfg imm))) := by
  simp only [exec, execSetdec]
  split <;> rfl

/-- Settles O23: the step stored is `clampStep`, which is the operand itself exactly in the valid range. -/
theorem setdecClampsIntoRange : Obligations.SetdecClampsIntoRange := by
  intro s imm hc
  obtain ⟨-, -, -, -, -, -, ⟨hD, hD'⟩, -⟩ := hc
  refine ⟨clampStep s.cfg imm, clampStep_toNat hD' imm, ?_⟩
  simp only [exec_setdec, clampStep_eq_self_iff hD hD']
  rfl

/-- Settles O24: SETREF has one write and one response (R122). -/
theorem setrefStoresTheReading : Obligations.SetrefStoresTheReading := fun _ _ => rfl

/-! ### The gate of PRODUCE -/

/-- Settles O25: the gate of R124 is the first thing PRODUCE checks. -/
theorem produceIsGatedOnComplete : Obligations.ProduceIsGatedOnComplete := by
  intro s hC
  exact (execProduce_eq s).trans (if_pos hC)

/-- Settles O26: behind the gate the next check is that of R135 (k). -/
theorem produceRefusesStepZero : Obligations.ProduceRefusesStepZero := by
  intro s hC hD
  simp only [exec, execProduce_eq, hC, hD, Bool.true_eq_false, if_true, if_false]

/-- Past the gate, with a step, PRODUCE is carried out (R123); the status tells whether the scale is the nominal one. -/
theorem exec_produce_of_complete {s : State} (hC : s.COMPLETE = true) (hD : s.DECIM ≠ 0#16) :
    exec .produce s = .next ((produced s).complete (if s.REF = 0#16 then .refFallback else .ok) 0#32) := by
  simp only [exec, execProduce_eq, hC, if_neg hD, Bool.true_eq_false, if_false]

/-- PRODUCE answers a next state in two ways: at the gate, and carried out. -/
theorem exec_produce_next_cases {s t : State} (h : exec .produce s = .next t) :
    (s.COMPLETE = false ∧ t = s.complete .notReady 0#32) ∨
    (s.COMPLETE = true ∧ s.DECIM ≠ 0#16 ∧
      t = (produced s).complete (if s.REF = 0#16 then .refFallback else .ok) 0#32) := by
  cases hC : s.COMPLETE with
  | false =>
    rw [produceIsGatedOnComplete s hC] at h
    cases h
    exact .inl ⟨rfl, rfl⟩
  | true =>
    have hD : s.DECIM ≠ 0#16 := fun hD => by
      rw [produceRefusesStepZero s hC hD] at h
      cases h
    rw [exec_produce_of_complete hC hD] at h
    cases h
    exact .inr ⟨rfl, hD, rfl⟩

theorem eq_produced_of_exec_produce {s t : State} (hC : s.COMPLETE = true) (h : exec .produce s = .next t) :
    t = (produced s).complete (if s.REF = 0#16 then .refFallback else .ok) 0#32 := by
  rcases exec_produce_next_cases h with ⟨hC', -⟩ | ⟨-, -, ht⟩
  · simp [hC] at hC'
  · exact ht

end Sys2Proof.Machine
end

