-- ==== Sys2Proof/Proofs/Scale.lean ====
section
/-! The scale of `40_acquisition.md` R125 as an exact rational, and the rescaling of R127 as a function of the
sample. -/

namespace Sys2Proof.Machine

/-- The fraction the model computes with is the rational of R125. -/
theorem toRat_scaleOf (c : Cfg) (ref : BitVec 16) : (scaleOf c ref).toRat = scaleRat c ref := by
  unfold scaleOf scaleRat
  split
  · rfl
  · simp only [Ratio.toRat, Nat.cast_mul, div_div]

theorem rndMul_eq_roundHalfUp (n : Nat) {q : Ratio} (hq : 0 < q.den) : rndMul n q = roundHalfUp (n * q.toRat) := by
  rw [rndMul, rnd_eq_roundHalfUp _ hq, Ratio.toRat, Nat.cast_mul, mul_div_assoc]

theorem rndMul_scaleOf {c : Cfg} (hc : c.Valid) (ref : BitVec 16) (n : Nat) :
    rndMul n (scaleOf c ref) = roundHalfUp (n * scaleRat c ref) := by
  rw [rndMul_eq_roundHalfUp n (scaleOf_inRange hc ref).1, toRat_scaleOf]

theorem screenOffset_zero {c : Cfg} {q : Ratio} (hq : 0 < q.den) : screenOffset c q 0 = c.BASE := by
  rw [screenOffset, rndMul_zero hq, Nat.zero_min, Nat.sub_zero, Cfg.BASE]

theorem screenOffset_antitone {c : Cfg} (hH : c.H ≤ 65535) (q : Ratio) {r r' : Nat} (h : r ≤ r') :
    (screenOffset c q r').toNat ≤ (screenOffset c q r).toNat := by
  rw [screenOffset_toNat hH, screenOffset_toNat hH]
  exact Nat.sub_le_sub_left (min_le_min_right _ (rndMul_mono h)) _

/-- Settles O29: rounding and clamping are monotone, and the inversion turns them round. -/
theorem rescalingIsAntitoneFromTheBaseline : Obligations.RescalingIsAntitoneFromTheBaseline := by
  intro c ref hc
  have ⟨_, _, ⟨_, hH⟩, _⟩ := hc
  exact ⟨screenOffset_zero (scaleOf_inRange hc ref).1, fun _ _ => screenOffset_antitone hH _,
    screenOffset_toNat_le hH _⟩

end Sys2Proof.Machine
end

