-- ==== Sys2Proof/Proofs/ProduceResults.lean ====
section
/-! The results of a PRODUCE that is carried out from a state that meets the invariant (`40_acquisition.md` R123 to
R133): the decimated sequence, the extremes, the amplitude, the trigger and the frame. -/

namespace Sys2Proof.Machine

/-! ### The registers and the buffers as numbers, under the invariant -/

@[simp] theorem produced_read_Y (s : State) : (produced s).mem.read .Y = (rescaled s).read .Y := rfl

theorem rescaled_read_Y_of_le {s : State} {i : Nat} (h : decimatedLength s ≤ i) :
    (rescaled s).read .Y i = s.mem.read .Y i := read_fill_same_of_le h

section
variable {s : State} (hs : s.Inv)
include hs

theorem produced_DLEN_of_inv : (produced s).DLEN.toNat = decimatedLength s := by
  obtain ⟨⟨-, hN⟩, -⟩ := hs.cfg
  exact produced_DLEN_toNat hN hs.decim_pos

theorem decimatedLength_pos_of_inv : 1 ≤ decimatedLength s := by
  obtain ⟨⟨hN, -⟩, -⟩ := hs.cfg
  exact decimatedLength_pos hN hs.decim_pos

theorem produced_TRIG_of_inv :
    (produced s).TRIG.toNat = triggerIndex s.cfg ((rescaled s).read .Y) (decimatedLength s) := by
  obtain ⟨⟨-, hN⟩, -⟩ := hs.cfg
  exact produced_TRIG_toNat hN hs.decim_pos

theorem rescaled_read_Y_of_inv {j : Nat} (hj : j < decimatedLength s) :
    (rescaled s).read .Y j = screenOffset s.cfg (scaleOf s.cfg s.REF) (visited s j) := by
  obtain ⟨-, hY, -⟩ := hs.mem
  exact rescaled_read_Y hY hs.decim_pos hj

/-- The amplitude has room in 32 bits (R132). -/
theorem produced_AMP_of_inv :
    (produced s).AMP.toNat =
      rndMul ((produced s).RAW_MAX.toNat - (produced s).RAW_MIN.toNat) (scaleOf s.cfg s.REF) := by
  have hMAX := (produced s).RAW_MAX.isLt
  have hspread : (produced s).RAW_MAX.toNat - (produced s).RAW_MIN.toNat ≤ 65535 := by omega
  have hlt := rndMul_lt hspread (scaleOf_inRange hs.cfg s.REF)
  rw [produced_RAW_MAX_toNat, produced_RAW_MIN_toNat] at hlt ⊢
  exact Nat.mod_eq_of_lt hlt

theorem produced_read_CUR_of_inv {k : Nat} (hk : k < s.cfg.W) :
    (produced s).mem.read .CUR k =
      windowed s.cfg ((rescaled s).read .Y) (decimatedLength s) (produced s).TRIG.toNat k := by
  obtain ⟨-, -, hCUR, -⟩ := hs.mem
  have hkC : k < ((rescaled s).buffer .CUR).length := hk.trans_eq hCUR.symm
  rw [produced_mem, read_fill_same hkC, if_pos hk, produced_TRIG_of_inv hs]

end

/-! ### Completion and the decimated sequence (R126, R127) -/

/-- Settles O27: PRODUCE leaves `produced s` and its response, whose `DLEN` is the quotient rounded up. -/
theorem produceCompletesAndItsFrame : Obligations.ProduceCompletesAndItsFrame := by
  intro s hs hC
  refine ⟨_, exec_produce_of_complete hC hs.decim_ne_zero, rfl, ?_⟩
  simp only [State.complete_DLEN, State.complete_mem, produced_DLEN_of_inv hs, produced_read_Y]
  exact ⟨rfl, decimatedLength_pos_of_inv hs, fun _ => rescaled_read_Y_of_le⟩

/-- Settles O28: `Y[j]` is the screen offset of the sample visited, by the exact scale. -/
theorem produceRescalesEveryVisitedSample : Obligations.ProduceRescalesEveryVisitedSample := by
  intro s t hs hC h j hj
  obtain ⟨-, -, ⟨-, hH⟩, -⟩ := hs.cfg
  obtain rfl := eq_produced_of_exec_produce hC h
  rw [State.complete_DLEN, produced_DLEN_of_inv hs] at hj
  refine ⟨mul_lt_of_lt_ceilDiv hs.decim_pos hj, ?_⟩
  rw [State.complete_mem, produced_read_Y, rescaled_read_Y_of_inv hs hj, screenOffset_toNat hH, rndMul_scaleOf hs.cfg,
    visited]

/-! ### The extremes and the amplitude (R128, R132) -/

/-- Settles O30: the two folds bound every value they go over and are attained by one. -/
theorem produceTracksRawExtremes : Obligations.ProduceTracksRawExtremes := by
  intro s t hs hC h
  obtain rfl := eq_produced_of_exec_produce hC h
  have hL := decimatedLength_pos_of_inv hs
  simp only [State.complete_DLEN, State.complete_RAW_MIN, State.complete_RAW_MAX, produced_DLEN_of_inv hs,
    ← BitVec.toNat_inj, produced_RAW_MIN_toNat, produced_RAW_MAX_toNat]
  exact ⟨fun j hj => ⟨lowest_le (f := visited s) hj, le_highest (f := visited s) hj⟩,
    lowest_attained hL fun j _ => visited_le s j, highest_attained hL⟩

/-- Settles O31: the amplitude as a number, by the exact scale. -/
theorem produceAmplitudeFromTrueExtremes : Obligations.ProduceAmplitudeFromTrueExtremes := by
  intro s t hs hC h
  obtain rfl := eq_produced_of_exec_produce hC h
  exact (produced_AMP_of_inv hs).trans (rndMul_scaleOf hs.cfg s.REF _)

/-- Settles O32: the same scale, and rounding a product is monotone in its natural factor. -/
theorem amplitudeIsMonotoneInTheSpread : Obligations.AmplitudeIsMonotoneInTheSpread := by
  intro s s' t t' hs hs' hC hC' hcfg hREF h h' hspread
  obtain rfl := eq_produced_of_exec_produce hC h
  obtain rfl := eq_produced_of_exec_produce hC' h'
  simp only [State.complete_AMP, produced_AMP_of_inv hs, produced_AMP_of_inv hs', hcfg, hREF]
  exact rndMul_mono hspread

/-! ### The trigger and the frame (R129 to R131) -/

/-- Settles O33: the search finds the first edge of its span, and 0 when there is none. -/
theorem produceFindsTheFirstEdge : Obligations.ProduceFindsTheFirstEdge := by
  intro s t hs hC h edge
  obtain rfl := eq_produced_of_exec_produce hC h
  have edge_iff (i : Nat) : edge i ↔
      i < decimatedLength s - s.cfg.W ∧ isEdge s.cfg.TRIG_TH ((rescaled s).read .Y) i = true := by
    simp only [edge, State.complete_DLEN, State.complete_mem, produced_DLEN_of_inv hs, produced_read_Y, isEdge_iff,
      Nat.lt_sub_iff_add_lt]
  simp only [edge_iff, State.complete_TRIG, produced_TRIG_of_inv hs]
  rcases triggerIndex_spec s.cfg ((rescaled s).read .Y) (decimatedLength s) with ⟨hlt, hedge, hfirst⟩ | ⟨hzero, hnone⟩
  · exact ⟨fun _ => ⟨⟨hlt, hedge⟩, fun i hi ⟨_, he⟩ => by simp [hfirst i hi] at he⟩,
      fun hno => absurd ⟨hlt, hedge⟩ (hno _)⟩
  · exact ⟨fun ⟨i, hi, he⟩ => by simp [hnone i hi] at he, fun _ => hzero⟩

/-- A frame that runs past the end of the sequence starts at 0, because the search leaves room for a whole frame. -/
theorem triggerIndex_eq_zero_of_le_add {c : Cfg} {y : Nat → Sample} {L k : Nat} (hk : k < c.W)
    (h : L ≤ triggerIndex c y L + k) : triggerIndex c y L = 0 := by
  rcases triggerIndex_spec c y L with ⟨hlt, -⟩ | ⟨hzero, -⟩
  · omega
  · exact hzero

/-- Settles O34: an element of the frame is the sequence's from the trigger on; padding means that the trigger is 0. -/
theorem produceWindowsAndPads : Obligations.ProduceWindowsAndPads := by
  intro s t hs hC h
  obtain ⟨-, -, ⟨-, hH⟩, -⟩ := hs.cfg
  obtain ⟨-, -, hCUR, -⟩ := hs.produced.mem
  obtain rfl := eq_produced_of_exec_produce hC h
  simp only [State.complete_DLEN, State.complete_mem, State.complete_TRIG, produced_DLEN_of_inv hs, produced_read_Y]
  refine ⟨fun k hk hin => ?_, fun k hk hout => ?_, hCUR⟩
  · rw [produced_read_CUR_of_inv hs hk, windowed, if_pos hin]
  · have hzero : (produced s).TRIG.toNat = 0 := by
      rw [produced_TRIG_of_inv hs] at hout ⊢
      exact triggerIndex_eq_zero_of_le_add hk hout
    rw [produced_read_CUR_of_inv hs hk, windowed, if_neg hout.not_gt, base_toNat hH]
    exact ⟨rfl, by omega, hzero⟩

end Sys2Proof.Machine
end

