-- ==== Sys2Proof/Proofs/ProduceInputs.lean ====
section
/-! What the results of PRODUCE depend on: the samples visited alone (`40_acquisition.md` R126), and nothing that
PRODUCE itself writes (R134). -/

namespace Sys2Proof.Machine

/-! ### Samples that are not visited (R126) -/

/-- The same state with another block of samples. -/
def State.withRAW (s : State) (raw : List Sample) : State := { s with mem := { s.mem with RAW := raw } }

/-- The block matters to PRODUCE through the visited samples only. -/
theorem produced_withRAW {s : State} {raw : List Sample} (h : visited (s.withRAW raw) = visited s) :
    produced (s.withRAW raw) = (produced s).withRAW raw := by
  simp only [produced, h]
  rfl

/-- Blocks of one length that agree at the multiples of the step below that length give the same visited samples. -/
theorem visited_withRAW {s : State} {raw : List Sample} (hlen : raw.length = s.mem.RAW.length)
    (h : ∀ j, j * s.DECIM.toNat < s.mem.RAW.length → raw[j * s.DECIM.toNat]? = s.mem.RAW[j * s.DECIM.toNat]?) :
    visited (s.withRAW raw) = visited s := by
  funext j
  have same : raw[j * s.DECIM.toNat]? = s.mem.RAW[j * s.DECIM.toNat]? := by
    rcases Nat.lt_or_ge (j * s.DECIM.toNat) s.mem.RAW.length with hin | hout
    · exact h j hin
    · rw [List.getElem?_eq_none hout, List.getElem?_eq_none (hlen.trans_le hout)]
  simp only [visited, State.withRAW, Memory.read, Memory.buffer, List.getD_eq_getElem?_getD, same]

/-- Settles O35: with the gate closed nothing is read; past it, the two blocks give the same visited samples. -/
theorem unvisitedSamplesHaveNoInfluence : Obligations.UnvisitedSamplesHaveNoInfluence := by
  intro s t raw hs hlen hagree h
  obtain ⟨hRAW, -⟩ := hs.mem
  change exec .produce (s.withRAW raw) = .next (t.withRAW raw)
  rcases exec_produce_next_cases h with ⟨hC, rfl⟩ | ⟨hC, hD, rfl⟩
  · exact produceIsGatedOnComplete (s.withRAW raw) hC
  · have same : visited (s.withRAW raw) = visited s := visited_withRAW (hlen.trans hRAW.symm) (hRAW ▸ hagree)
    rw [exec_produce_of_complete (s := s.withRAW raw) hC hD, produced_withRAW same]
    rfl

/-! ### A second PRODUCE (R134) -/

/-- The second of two fills with the same values changes nothing. -/
theorem writeFirst_writeFirst (n : Nat) (f : Nat → Sample) (l : List Sample) :
    writeFirst n f (writeFirst n f l) = writeFirst n f l := by
  apply List.ext_getElem?
  intro i
  simp only [getElem?_writeFirst, Option.map_map]
  congr 1
  funext v
  simp only [Function.comp_apply]
  split <;> rfl

/-- Rescaling the same samples again finds the sequence as it would write it. -/
theorem rescaled_produced (s : State) (st : Status) (d : BitVec 32) :
    rescaled ((produced s).complete st d) = (produced s).mem :=
  congrArg (fun Y => { (produced s).mem with Y }) (writeFirst_writeFirst _ _ _)

theorem produced_mem_produced (s : State) (st : Status) (d : BitVec 32) :
    (produced ((produced s).complete st d)).mem = (produced s).mem := by
  rw [produced_mem, rescaled_produced]
  exact congrArg (fun CUR => { (produced s).mem with CUR }) (writeFirst_writeFirst _ _ _)

theorem produced_TRIG (s : State) :
    (produced s).TRIG = BitVec.ofNat 16 (triggerIndex s.cfg ((rescaled s).read .Y) (decimatedLength s)) := rfl

/-- The extremes, the amplitude and the length depend on the visited samples alone; the frame and the trigger are found
in a sequence that is there already. -/
theorem produced_produced (s : State) (st : Status) (d : BitVec 32) :
    produced ((produced s).complete st d) = (produced s).complete st d := by
  have hTRIG : (produced ((produced s).complete st d)).TRIG = (produced s).TRIG := by
    rw [produced_TRIG, rescaled_produced]
    rfl
  calc produced ((produced s).complete st d)
      = { (produced s).complete st d with
          mem := (produced ((produced s).complete st d)).mem
          TRIG := (produced ((produced s).complete st d)).TRIG } := rfl
    _ = (produced s).complete st d := by rw [produced_mem_produced, hTRIG]; rfl

/-- Settles O36: PRODUCE writes none of the fields that its gate, its scale and its samples are read from. -/
theorem produceIsIdempotent : Obligations.ProduceIsIdempotent := by
  intro s t h
  rcases exec_produce_next_cases h with ⟨hC, rfl⟩ | ⟨hC, hD, rfl⟩
  · exact produceIsGatedOnComplete _ hC
  · rw [exec_produce_of_complete, produced_produced]
    · rfl
    · exact hC
    · exact hD

end Sys2Proof.Machine
end

