-- ==== Sys2Proof/Proofs/FrameUpdater.lean ====
section
/-! The frame updater: what CLRFRM leaves in the two frames (`41_frame_updater.md` R162), and the records of RENDER and
its copy (R161, R163, R165, R167). -/

namespace Sys2Proof.Machine

/-! ### CLRFRM (R162) -/

theorem exec_clrfrm (s : State) :
    exec .clrfrm s = .next (State.complete
      { s with mem := (s.mem.fill .PRV s.cfg.W fun _ => s.cfg.BASE).fill .CUR s.cfg.W fun _ => s.cfg.BASE }
      .ok 0#32) := rfl

theorem fill_frames_const {c : Cfg} {m : Memory} (h : m.wf c) (v : Sample) :
    (m.fill .PRV c.W fun _ => v).fill .CUR c.W (fun _ => v) =
      { m with PRV := List.replicate c.W v, CUR := List.replicate c.W v } := by
  obtain ⟨-, -, hCUR, hPRV⟩ := h
  simp only [Memory.fill, writeFirst_const hCUR, writeFirst_const hPRV]

/-- Settles O41: a constant fill of a buffer of its own length is a constant list. -/
theorem clrfrmSetsBothFramesToBaseline : Obligations.ClrfrmSetsBothFramesToBaseline := by
  intro s hwf
  rw [exec_clrfrm, fill_frames_const hwf]
  rfl

/-! ### RENDER (R161) -/

/-- The copy of one frame over the other (R165). -/
theorem fill_PRV_read_CUR {c : Cfg} {m : Memory} (h : m.wf c) :
    m.fill .PRV c.W (m.read .CUR) = { m with PRV := m.CUR } := by
  obtain ⟨-, -, hCUR, hPRV⟩ := h
  rw [Memory.fill, writeFirst_eq_of_length hPRV hCUR _ fun _ hi => read_of_lt (S := .CUR) hi]

/-- The state that RENDER leaves when the frames have their length. -/
def rendered (s : State) : State :=
  { s with
    trace := s.trace ++ renderLines s.cfg s.mem
    mem := { s.mem with PRV := s.mem.CUR }
    response := some ⟨.ok, 0#32⟩ }

theorem exec_render_of_wf {s : State} (h : s.mem.wf s.cfg) : exec .render s = .next (rendered s) := by
  rw [exec_render, fill_PRV_read_CUR h]
  rfl

/-- The records of pair `i`: the erase, and next to it the draw (R163). -/
theorem getElem?_renderLines {c : Cfg} (m : Memory) {i : Nat} (hi : i + 1 < c.W) :
    (renderLines c m)[2 * i]? = some (frameSegment c (m.read .PRV) c.BG i) ∧
    (renderLines c m)[2 * i + 1]? = some (frameSegment c (m.read .CUR) c.FG i) := by
  have hpair : (List.range (c.W - 1))[i]? = some i := List.getElem?_range (by omega)
  obtain ⟨herase, hdraw⟩ := getElem?_flatMap_pair (frameSegment c (m.read .PRV) c.BG)
    (frameSegment c (m.read .CUR) c.FG) (List.range (c.W - 1)) i
  rw [hpair] at herase hdraw
  exact ⟨herase, hdraw⟩

/-- Under the invariant an element of a frame is an offset on the screen (R31). -/
theorem State.Inv.read_frame_le {s : State} (h : s.Inv) {S : Space} (hS : S = .PRV ∨ S = .CUR) {i : Nat}
    (hi : i < s.cfg.W) : (s.mem.read S i).toNat ≤ s.cfg.H := by
  obtain ⟨-, -, hCUR, hPRV⟩ := h.mem
  rcases hS with rfl | rfl
  · have hi' : i < (s.mem.buffer .PRV).length := hi.trans_eq hPRV.symm
    exact read_of_lt hi' ▸ h.prv _ (List.getElem_mem hi')
  · have hi' : i < (s.mem.buffer .CUR).length := hi.trans_eq hCUR.symm
    exact read_of_lt hi' ▸ h.cur _ (List.getElem_mem hi')

/-- The screen fits in the 16 bits of a coordinate (R4), so none is cut off (R167). -/
theorem frameSegment_toNat {c : Cfg} (hc : c.Valid) {frame : Nat → Sample} (col : Colour) {i : Nat} (hi : i + 1 < c.W)
    (h₁ : (frame i).toNat ≤ c.H) (h₂ : (frame (i + 1)).toNat ≤ c.H) :
    (frameSegment c frame col i).x1.toNat = c.X0 + i ∧
    (frameSegment c frame col i).y1.toNat = c.Y0 + (frame i).toNat ∧
    (frameSegment c frame col i).x2.toNat = c.X0 + i + 1 ∧
    (frameSegment c frame col i).y2.toNat = c.Y0 + (frame (i + 1)).toNat ∧
    (frameSegment c frame col i).c = col := by
  obtain ⟨-, -, -, -, -, -, -, -, -, -, -, -, hX, hY, -⟩ := hc
  refine ⟨Nat.mod_eq_of_lt ?_, Nat.mod_eq_of_lt ?_, Nat.mod_eq_of_lt ?_, Nat.mod_eq_of_lt ?_, rfl⟩ <;> omega

/-- Settles O37: the records of pair `i` are the segments of the two frames, whose elements are at most `H`. -/
theorem renderErasesThenDrawsThenCopies : Obligations.RenderErasesThenDrawsThenCopies := by
  intro s hs
  refine ⟨renderLines s.cfg s.mem, exec_render_of_wf hs.mem, length_renderLines _ _, fun i hi => ?_⟩
  obtain ⟨herase, hdraw⟩ := getElem?_renderLines s.mem hi
  have hi' : i < s.cfg.W := by omega
  exact ⟨_, _, herase, hdraw,
    frameSegment_toNat hs.cfg _ hi (hs.read_frame_le (.inl rfl) hi') (hs.read_frame_le (.inl rfl) hi),
    frameSegment_toNat hs.cfg _ hi (hs.read_frame_le (.inr rfl) hi') (hs.read_frame_le (.inr rfl) hi)⟩

end Sys2Proof.Machine
end

