-- ==== Sys2Proof/Proofs/Redraw.lean ====
section
/-! What a RENDER does to the pixels (`41_frame_updater.md` R166), for any line primitive: with equal frames it shows
the trace (R164) and a further one changes nothing; with different frames the next one may (R168). -/

namespace Sys2Proof.Machine

/-! ### Equal frames (R164) -/

theorem render_appends_renderLines {s t : State} (h : exec .render s = .next t) :
    t.trace = s.trace ++ renderLines s.cfg s.mem := by
  rw [exec_render] at h
  cases h
  rfl

/-- The records of a redraw: each segment of one frame in the background colour and then in the foreground colour. -/
def redrawLines (c : Cfg) (frame : Nat → Sample) (l : List Nat) : List Line :=
  l.flatMap fun i => [frameSegment c frame c.BG i, frameSegment c frame c.FG i]

theorem renderLines_of_frames_eq (c : Cfg) {m : Memory} (h : m.PRV = m.CUR) :
    renderLines c m = redrawLines c (m.read .CUR) (List.range (c.W - 1)) := by
  have hread : m.read .PRV = m.read .CUR := by
    funext i
    simp only [Memory.read, Memory.buffer, h]
  rw [renderLines, hread, redrawLines]

theorem frameSegment_covers (c : Cfg) (frame : Nat → Sample) (col col' : Colour) (i : Nat) (lp : LinePixels)
    (p : Nat × Nat) : (frameSegment c frame col i).covers lp p = (frameSegment c frame col' i).covers lp p := rfl

/-- A segment erased and drawn again is all in the foreground colour, and nothing else is touched. -/
theorem paintLine_erase_draw (c : Cfg) (frame : Nat → Sample) (i : Nat) (lp : LinePixels) (scr : Screen)
    (p : Nat × Nat) :
    paintLine lp (paintLine lp scr (frameSegment c frame c.BG i)) (frameSegment c frame c.FG i) p =
      if (frameSegment c frame c.FG i).covers lp p then c.FG else scr p := by
  simp only [paintLine, frameSegment_covers c frame c.BG c.FG]
  split
  · rfl
  · exact if_neg ‹_›

/-- Later pairs leave a pixel of an earlier one in the foreground colour, whether they cover it or not. -/
theorem paint_redrawLines (c : Cfg) (frame : Nat → Sample) (l : List Nat) (lp : LinePixels) (scr : Screen)
    (p : Nat × Nat) :
    paint lp (redrawLines c frame l) scr p =
      if (redrawLines c frame l).any (fun r => r.covers lp p) then c.FG else scr p := by
  induction l generalizing scr with
  | nil => rfl
  | cons i l ih =>
    have hpaint : paint lp (redrawLines c frame (i :: l)) scr =
        paint lp (redrawLines c frame l)
          (paintLine lp (paintLine lp scr (frameSegment c frame c.BG i)) (frameSegment c frame c.FG i)) := rfl
    have hany : (redrawLines c frame (i :: l)).any (fun r => r.covers lp p) =
        ((frameSegment c frame c.FG i).covers lp p || (redrawLines c frame l).any fun r => r.covers lp p) :=
      Bool.or_self_left _ _
    rw [hpaint, ih, paintLine_erase_draw, hany]
    cases (frameSegment c frame c.FG i).covers lp p <;> simp

theorem paint_renderLines_of_frames_eq (c : Cfg) {m : Memory} (h : m.PRV = m.CUR) (lp : LinePixels) (scr : Screen)
    (p : Nat × Nat) :
    paint lp (renderLines c m) scr p =
      if (renderLines c m).any (fun r => r.covers lp p) then c.FG else scr p := by
  rw [renderLines_of_frames_eq c h, paint_redrawLines]

/-- Settles O38: the records are those of `renderLines`, which with equal frames erase only what they draw again. -/
theorem redrawShowsTheCurrentTrace : Obligations.RedrawShowsTheCurrentTrace :=
  fun s _ lp hframes h =>
    ⟨renderLines s.cfg s.mem, render_appends_renderLines h, paint_renderLines_of_frames_eq s.cfg hframes lp⟩

/-! ### One RENDER after another (P4) -/

/-- With equal frames, the same records once more change no pixel. -/
theorem paint_renderLines_twice (c : Cfg) {m : Memory} (h : m.PRV = m.CUR) (lp : LinePixels) (scr : Screen) :
    paint lp (renderLines c m) (paint lp (renderLines c m) scr) = paint lp (renderLines c m) scr := by
  funext p
  simp only [paint_renderLines_of_frames_eq c h]
  split <;> rfl

/-- A second RENDER keeps the frames of the first, so the third has the records of the second. -/
theorem renderLines_rendered_rendered (s : State) :
    renderLines (rendered (rendered s)).cfg (rendered (rendered s)).mem =
      renderLines (rendered s).cfg (rendered s).mem := rfl

/-- Settles O39: the first RENDER makes the frames equal, and the second and the third draw the same records. -/
theorem repeatedRedrawChangesNoPixel : Obligations.RepeatedRedrawChangesNoPixel := by
  intro s t₁ t₂ t₃ lp hs h₁ h₂ h₃
  have hs₁ := hs.exec h₁
  have hs₂ := hs₁.exec h₂
  refine ⟨_, _, _, render_appends_renderLines h₁, render_appends_renderLines h₂, render_appends_renderLines h₃,
    fun scr => ?_⟩
  obtain rfl : rendered s = t₁ := by simpa [exec_render_of_wf hs.mem] using h₁
  obtain rfl : rendered (rendered s) = t₂ := by simpa [exec_render_of_wf hs₁.mem] using h₂
  rw [renderLines_rendered_rendered]
  exact paint_renderLines_twice _ rfl lp _

/-! ### Different frames (R168) -/

/-- A line primitive: the start point, then the column of the end point from the one row to the other. -/
def columnPixels : LinePixels := fun x1 y1 x2 y2 =>
  (x1.toNat, y1.toNat) ::
    (List.range' (min y1.toNat y2.toNat) (max y1.toNat y2.toNat - min y1.toNat y2.toNat + 1)).map (x2.toNat, ·)

/-- After reset under `CFG_T` (R50), with zero blocks: both frames are the baseline. -/
def flatFrames : State := State.resetWith Config.cfgT (fun _ => 0#16) (fun _ => 0#16) none none

theorem cfgT_valid : Config.cfgT.Valid := by decide

theorem flatFrames_inv : flatFrames.Inv := resetWith_inv cfgT_valid _ _ _ _

/-- The old trace is the baseline, and the new one leaves it after its first point: the rows 100, 99, 99, 99. -/
def leavingBaseline : State :=
  { flatFrames with mem := flatFrames.mem.fill .CUR 4 fun k => if k = 0 then 100 else 99 }

theorem leavingBaseline_inv : leavingBaseline.Inv :=
  flatFrames_inv.fill .CUR 4 fun _ i _ _ => by
    show (if i = 0 then 100#16 else 99#16).toNat ≤ 100
    split <;> decide

/-- The new segment 0 covers pixel (1, 100), the erase of the old segment 1 takes it, and only the next RENDER puts it
back. -/
theorem paint_leavingBaseline :
    let first := paint columnPixels (renderLines leavingBaseline.cfg leavingBaseline.mem) fun _ => 0#16
    first (1, 100) = 0#16 ∧
    paint columnPixels (renderLines (rendered leavingBaseline).cfg (rendered leavingBaseline).mem) first (1, 100)
      = 0xFFFF#16 := by decide

/-- Refutes O40: under `CFG_T`, with frames that differ, the second RENDER changes a pixel of a blank screen. -/
theorem not_firstRedrawChangesNoPixel : ¬ Obligations.FirstRedrawChangesNoPixel := by
  intro h
  have h₁ := exec_render_of_wf leavingBaseline_inv.mem
  have h₂ := exec_render_of_wf (leavingBaseline_inv.exec h₁).mem
  obtain ⟨ls₁, ls₂, e₁, e₂, same⟩ := h _ _ _ columnPixels leavingBaseline_inv h₁ h₂
  obtain rfl := List.append_cancel_left ((render_appends_renderLines h₁).symm.trans e₁)
  obtain rfl := List.append_cancel_left ((render_appends_renderLines h₂).symm.trans e₂)
  obtain ⟨erased, putBack⟩ := paint_leavingBaseline
  have unchanged := congrFun (same fun _ => 0#16) (1, 100)
  rw [erased, putBack] at unchanged
  exact absurd unchanged (by decide)

end Sys2Proof.Machine
end

