-- ==== Sys2Proof/Proofs/Debouncer.lean ====
section
/-! One debouncer command (`42_debouncer.md`): the window step and the level step by their cases (R183, R184), one tick
of a button put together from them (R182, R185), and DBTICK, EVRD and EVCLR (R181, R190, R191). -/

namespace Sys2Proof.Machine

/-- The debouncer's part of R4. -/
theorem debouncer_ranges {c : Cfg} (hc : c.Valid) :
    1 ≤ c.MIN_TH ∧ c.MIN_TH ≤ c.LONG_TH ∧ c.LONG_TH ≤ c.DUR_CAP ∧ c.DUR_CAP ≤ 65535 ∧
    1 ≤ c.DBL_WINDOW ∧ c.DBL_WINDOW ≤ 65535 := by
  obtain ⟨-, -, -, -, -, -, -, -, hmin, hlong, ⟨hcap, hcap'⟩, ⟨hwin, hwin'⟩, -⟩ := hc
  exact ⟨hmin, hlong, hcap, hcap', hwin, hwin'⟩

/-! ### The window step (R184) -/

/-- A window that is not armed. -/
theorem Button.windowStep_of_unarmed {r : Button} (h : r.WIN.toNat = 0) : r.windowStep = r := by
  simp [Button.windowStep, h]

/-- A window that still runs after this tick. -/
theorem Button.windowStep_of_running {r : Button} (h : 2 ≤ r.WIN.toNat) :
    r.windowStep = { r with WIN := BitVec.ofNat 16 (r.WIN.toNat - 1) } := by
  have hpos : 0 < r.WIN.toNat := by omega
  have hleft : BitVec.ofNat 16 (r.WIN.toNat - 1) ≠ 0#16 := by
    have := r.WIN.isLt
    simp only [ne_eq, BitVec.toNat_eq, BitVec.toNat_ofNat]
    omega
  simp only [Button.windowStep, if_pos hpos, if_neg hleft]

/-- The record at the end of the window: the event of its count, and no press counted. -/
def Button.finalized (r : Button) : Button := { r with WIN := 0#16, EV := r.finalEvent, CNT := 0#2, SEEN := false }

/-- The last tick of a window. -/
theorem Button.windowStep_of_last {r : Button} (h : r.WIN.toNat = 1) : r.windowStep = r.finalized := by
  simp [Button.windowStep, Button.finalized, h]

/-- The window step neither reads nor writes the duration. -/
theorem Button.windowStep_with_DUR (r : Button) (d : BitVec 16) :
    { r with DUR := d }.windowStep = { r.windowStep with DUR := d } := by
  rcases Nat.lt_trichotomy r.WIN.toNat 1 with h | h | h
  · have h0 : r.WIN.toNat = 0 := by omega
    rw [windowStep_of_unarmed (r := { r with DUR := d }) h0, windowStep_of_unarmed h0]
  · rw [windowStep_of_last (r := { r with DUR := d }) h, windowStep_of_last h]
    rfl
  · rw [windowStep_of_running (r := { r with DUR := d }) h, windowStep_of_running h]

@[simp] theorem Button.windowStep_DUR (r : Button) : r.windowStep.DUR = r.DUR := by
  exact (congrArg Button.DUR (r.windowStep_with_DUR r.DUR) :)

/-! ### The level step with the button released (R183) -/

theorem Button.levelStep_false_of_idle {c : Cfg} {r : Button} (h : r.DUR.toNat = 0) :
    r.levelStep c false = r := by
  simp [Button.levelStep, h]

theorem Button.levelStep_false_of_pressed {c : Cfg} {r : Button} (h : 0 < r.DUR.toNat) :
    r.levelStep c false = { r.release c with DUR := 0#16 } := by
  simp [Button.levelStep, h]

/-- The record of a press that is counted (R183): the count saturates, and the window is armed anew. -/
def Button.counted (c : Cfg) (r : Button) : Button :=
  { r with CNT := BitVec.ofNat 2 (satInc r.CNT.toNat 2), WIN := BitVec.ofNat 16 c.DBL_WINDOW, SEEN := true }

theorem Button.release_of_long {c : Cfg} {r : Button} (h : c.LONG_TH ≤ r.DUR.toNat) (hs : r.SEEN = false) :
    r.release c = { r with EV := .longPress } := if_pos ⟨h, hs⟩

theorem Button.not_long_iff {c : Cfg} {r : Button} :
    ¬ (c.LONG_TH ≤ r.DUR.toNat ∧ r.SEEN = false) ↔ r.DUR.toNat < c.LONG_TH ∨ r.SEEN = true := by
  rw [not_and_or, Nat.not_le, Bool.not_eq_false]

theorem Button.release_of_counted {c : Cfg} {r : Button} (h : c.MIN_TH ≤ r.DUR.toNat)
    (hs : r.DUR.toNat < c.LONG_TH ∨ r.SEEN = true) : r.release c = r.counted c :=
  (if_neg (not_long_iff.mpr hs)).trans (if_pos h)

/-- Contact bounce. -/
theorem Button.release_of_bounce {c : Cfg} {r : Button} (hc : c.MIN_TH ≤ c.LONG_TH) (h : r.DUR.toNat < c.MIN_TH) :
    r.release c = r :=
  (if_neg (not_long_iff.mpr (.inl (h.trans_le hc)))).trans (if_neg (Nat.not_le.mpr h))

/-- A release that is not LongPress leaves the event to the window step. -/
theorem Button.release_EV {c : Cfg} {r : Button} (hs : r.DUR.toNat < c.LONG_TH ∨ r.SEEN = true) :
    (r.release c).EV = r.EV := by
  rw [Button.release, if_neg (not_long_iff.mpr hs)]
  split <;> rfl

@[simp] theorem Button.levelStep_false_DUR (c : Cfg) (r : Button) : (r.levelStep c false).DUR = 0#16 := by
  rcases Nat.eq_zero_or_pos r.DUR.toNat with h | h
  · rw [levelStep_false_of_idle h]
    exact BitVec.eq_of_toNat_eq h
  · rw [levelStep_false_of_pressed h]

/-! ### One tick (R182, R185) -/

/-- Asserted, the duration counts and the window runs, each on its own. -/
theorem Button.tick_true (c : Cfg) (r : Button) :
    r.tick c true = { r.windowStep with DUR := BitVec.ofNat 16 (satInc r.DUR.toNat c.DUR_CAP) } :=
  r.windowStep_with_DUR _

@[simp] theorem Button.tick_false_DUR (c : Cfg) (r : Button) : (r.tick c false).DUR = 0#16 := by
  rw [Button.tick, windowStep_DUR, levelStep_false_DUR]

/-- A released tick whose level step only ends the press. -/
theorem Button.tick_false_of_levelStep {c : Cfg} {r : Button} (h : r.levelStep c false = { r with DUR := 0#16 }) :
    r.tick c false = { r.tick c true with DUR := 0#16 } := by
  rw [Button.tick, h, windowStep_with_DUR, tick_true]

/-- Settles O46: with `DUR = 0` the level step does nothing, and the window step does not look at `DUR`. -/
theorem idleReleasedTickRunsTheWindowOnly : Obligations.IdleReleasedTickRunsTheWindowOnly := by
  intro c r h
  have idle : r.levelStep c false = r := Button.levelStep_false_of_idle (by rw [h]; rfl)
  exact Button.tick_false_of_levelStep (by rw [idle, ← h])

theorem Button.Ok.unarmed {c : Cfg} {r : Button} (h : r.Ok c) (hs : r.SEEN = false) : r.WIN.toNat = 0 := by
  have := h.armed
  simp only [hs, Bool.false_eq_true, iff_false] at this
  omega

/-- A long press that is not counted: its window is not armed, so the window step leaves LongPress alone. -/
theorem Button.levelStep_of_long {c : Cfg} {r : Button} (hr : r.Ok c) (hpos : 0 < r.DUR.toNat)
    (hlong : c.LONG_TH ≤ r.DUR.toNat) (hs : r.SEEN = false) :
    r.levelStep c false = { r with DUR := 0#16, EV := .longPress } ∧
    (r.levelStep c false).windowStep = r.levelStep c false := by
  have level : r.levelStep c false = { r with DUR := 0#16, EV := .longPress } := by
    rw [levelStep_false_of_pressed hpos, release_of_long hlong hs]
  exact ⟨level, windowStep_of_unarmed (by rw [level]; exact hr.unarmed hs)⟩

/-- Settles O47: LongPress needs `SEEN = 0`, which is no window; no other branch of the level step writes the event. -/
theorem atMostOneEventPerTick : Obligations.AtMostOneEventPerTick := by
  intro c r hr
  refine ⟨fun hpos hlong hs => ?_, rfl, fun h => ?_⟩
  · obtain ⟨level, window⟩ := Button.levelStep_of_long hr hpos hlong hs
    exact ⟨by rw [level], window⟩
  · rcases Nat.eq_zero_or_pos r.DUR.toNat with h0 | hpos
    · rw [Button.levelStep_false_of_idle h0]
    · rw [Button.levelStep_false_of_pressed hpos]
      exact Button.release_EV (h.resolve_left hpos.ne')

theorem Button.finalEvent_of_one {r : Button} (h : r.CNT = 1#2) : r.finalEvent = .press := if_pos h

theorem Button.finalEvent_of_two {r : Button} (h : r.CNT = 2#2) : r.finalEvent = .doublePress := by
  simp [Button.finalEvent, h]

/-- Settles O45: the duration by the level step, and one case of the window step for each of the other clauses. -/
theorem assertedTickCountsAndRunsTheWindow : Obligations.AssertedTickCountsAndRunsTheWindow := by
  intro c r hc hr r'
  obtain ⟨-, -, -, hcap, -, -⟩ := debouncer_ranges hc
  have hr' : r' = { r.windowStep with DUR := BitVec.ofNat 16 (satInc r.DUR.toNat c.DUR_CAP) } := r.tick_true c
  refine ⟨?_, fun h => ?_, fun h => ?_, fun h => ?_⟩
  · rw [hr']
    exact Nat.mod_eq_of_lt (by have := satInc_le r.DUR.toNat c.DUR_CAP; omega)
  · rw [hr', Button.windowStep_of_unarmed h]
  · rw [hr', Button.windowStep_of_running h]
    have := r.WIN.isLt
    exact ⟨rfl, Nat.mod_eq_of_lt (by omega)⟩
  · rw [hr', Button.windowStep_of_last h]
    exact ⟨rfl, rfl, rfl, Button.finalEvent_of_one, Button.finalEvent_of_two⟩

theorem toNat_cnt_satInc (n : BitVec 2) : (BitVec.ofNat 2 (satInc n.toNat 2)).toNat = min (n.toNat + 1) 2 :=
  Nat.mod_eq_of_lt (by have := satInc_le n.toNat 2; omega)

/-- A press counted from 0 is one press, from any other count it is the second (R184). -/
theorem Button.finalEvent_counted (c : Cfg) (r : Button) :
    (r.counted c).finalEvent = if r.CNT = 0#2 then .press else .doublePress := by
  have hcnt := toNat_cnt_satInc r.CNT
  by_cases h0 : r.CNT = 0#2
  · rw [if_pos h0]
    exact finalEvent_of_one (by simp [Button.counted, h0, satInc])
  · rw [if_neg h0]
    have hne : r.CNT.toNat ≠ 0 := fun h => h0 (BitVec.eq_of_toNat_eq h)
    exact finalEvent_of_two (BitVec.eq_of_toNat_eq (hcnt.trans (Nat.min_eq_right (by omega))))

theorem Button.counted_WIN_toNat {c : Cfg} (hw : c.DBL_WINDOW ≤ 65535) (r : Button) :
    (r.counted c).WIN.toNat = c.DBL_WINDOW := Nat.mod_eq_of_lt (by omega)

theorem Button.levelStep_of_counted {c : Cfg} {r : Button} (hpos : 0 < r.DUR.toNat) (h : c.MIN_TH ≤ r.DUR.toNat)
    (hs : r.DUR.toNat < c.LONG_TH ∨ r.SEEN = true) :
    r.levelStep c false = { r.counted c with DUR := 0#16 } := by
  rw [levelStep_false_of_pressed hpos, release_of_counted h hs]

/-- Settles O44: one branch of `Button.release` a clause, then the case of the window step that its window calls for. -/
theorem releaseTickClassifiesThePress : Obligations.ReleaseTickClassifiesThePress := by
  intro c r hc hr hpos r'
  obtain ⟨-, hML, -, -, -, hw⟩ := debouncer_ranges hc
  have hcounted (h : c.MIN_TH ≤ r.DUR.toNat) (hs : r.DUR.toNat < c.LONG_TH ∨ r.SEEN = true) :
      r' = { (r.counted c).windowStep with DUR := 0#16 } := by
    rw [← Button.windowStep_with_DUR, ← Button.levelStep_of_counted hpos h hs]
    rfl
  have hWIN := Button.counted_WIN_toNat hw r
  refine ⟨Button.tick_false_DUR c r, fun hlong hs => ?_, fun h hs hw₂ => ?_, fun h hs hw₁ => ?_, fun h => ?_⟩
  · obtain ⟨level, window⟩ := Button.levelStep_of_long hr hpos hlong hs
    exact window.trans level
  · rw [hcounted h hs, Button.windowStep_of_running (by omega), hWIN]
    exact ⟨toNat_cnt_satInc r.CNT, Nat.mod_eq_of_lt (by omega), rfl, rfl⟩
  · rw [hcounted h hs, Button.windowStep_of_last (by omega)]
    exact ⟨rfl, rfl, rfl, Button.finalEvent_counted c r⟩
  · exact Button.tick_false_of_levelStep
      (by rw [Button.levelStep_false_of_pressed hpos, Button.release_of_bounce hML h])

/-! ### DBTICK (R181) -/

theorem exec_dbtick_of_legal {s : State} {imm : BitVec 16} (h : imm.toNat < 2 ^ s.cfg.NB) :
    exec (.dbtick imm) s = .next (State.complete { s with BTN := tickAll s.cfg imm s.BTN } .ok 0#32) :=
  if_pos (levelsLegal_iff.mpr h)

theorem exec_dbtick_of_illegal {s : State} {imm : BitVec 16} (h : 2 ^ s.cfg.NB ≤ imm.toNat) :
    exec (.dbtick imm) s = .next (s.complete .illegalCmd 0#32) :=
  if_neg fun hl => absurd (levelsLegal_iff.mp hl) (Nat.not_lt.mpr h)

/-- Settles O42: the two branches of the level check; a record after the tick by `button_tickAll`. -/
theorem dbtickStepsEveryButton : Obligations.DbtickStepsEveryButton := by
  intro s imm hlen
  refine ⟨fun h => ⟨_, exec_dbtick_of_legal h, rfl, ?_, fun b hb => ?_⟩, exec_dbtick_of_illegal⟩
  · exact (length_tickAll _ _ _).trans hlen
  · exact button_tickAll hlen hb

/-- The record of a button after a legal DBTICK. -/
theorem button_of_exec_dbtick {s t : State} {imm : BitVec 16} {b : Nat} (hlen : s.BTN.length = s.cfg.NB)
    (hb : b < s.cfg.NB) (himm : imm.toNat < 2 ^ s.cfg.NB) (h : exec (.dbtick imm) s = .next t) :
    t.button b = (s.button b).tick s.cfg (imm.getLsbD b) := by
  rw [exec_dbtick_of_legal himm] at h
  cases h
  exact button_tickAll hlen hb

/-- Settles O43: the record after the tick is a function of the configuration, the record before and the level. -/
theorem buttonsAreIndependent : Obligations.ButtonsAreIndependent := by
  intro s s' t t' imm imm' b hcfg hlen hlen' hb himm himm' hbutton hlevel h h'
  rw [← hcfg] at hlen' himm'
  rw [button_of_exec_dbtick hlen hb himm h, button_of_exec_dbtick hlen' (hcfg ▸ hb) himm' h', hcfg, hbutton, hlevel]

/-! ### EVRD and EVCLR (R190, R191) -/

theorem exec_evrd (s : State) (a : BitVec 8) :
    exec (.evrd a) s =
      if a.toNat < s.cfg.NB then .next (s.complete .ok (zext32 (eventCode (s.button a.toNat).EV)))
      else .next (s.complete .badIndex 0#32) := by
  simp [exec, execEvrd, buttonInRange]

/-- Settles O51: the two branches of the index check; the codes are those of `eventCode`. -/
theorem evrdReadsWithoutClearing : Obligations.EvrdReadsWithoutClearing := by
  intro s a
  rw [exec_evrd]
  refine ⟨fun h => ⟨_, if_pos h, ?_⟩, fun h => if_neg (Nat.not_lt.mpr h)⟩
  refine ⟨?_, ?_, ?_, ?_⟩ <;> intro e <;> rw [e] <;> rfl

theorem exec_evclr (s : State) (a : BitVec 8) :
    exec (.evclr a) s =
      if a.toNat < s.cfg.NB then
        .next (State.complete { s with BTN := s.BTN.modify a.toNat fun r => { r with EV := .none } } .ok 0#32)
      else .next (s.complete .badIndex 0#32) := by
  simp [exec, execEvclr, buttonInRange]

/-- Settles O52: the two branches of the index check; one record of the list is modified, in its event. -/
theorem evclrClearsOneEvent : Obligations.EvclrClearsOneEvent := by
  intro s a hlen
  rw [exec_evclr]
  refine ⟨fun h => ⟨_, if_pos h, rfl, ?_, ?_, fun b hb => ?_⟩, fun h => if_neg (Nat.not_lt.mpr h)⟩
  · exact (List.length_modify _ _ _).trans hlen
  · simp [State.button, List.getD_eq_getElem?_getD, hlen, h]
  · simp [State.button, List.getD_eq_getElem?_getD, hb.symm]

end Sys2Proof.Machine
end

