-- ==== Sys2Proof/Proofs/PressRuns.lean ====
section
/-! Presses over runs of DBTICK commands (`42_debouncer.md` R188, R192; properties P5 to P7): a run of commands is, for
each button, a run of ticks of its record; a stretch of equal levels is the window step as often, with the duration
counted beside it. -/

namespace Sys2Proof.Machine

/-- The ticks of one button with these levels, the first one first. -/
def Button.run (c : Cfg) (levels : List Bool) (r : Button) : Button := levels.foldl (fun r l => r.tick c l) r

theorem Button.run_cons (c : Cfg) (l : Bool) (levels : List Bool) (r : Button) :
    r.run c (l :: levels) = (r.tick c l).run c levels := rfl

theorem Button.run_append (c : Cfg) (levels levels' : List Bool) (r : Button) :
    r.run c (levels ++ levels') = (r.run c levels).run c levels' := List.foldl_append

/-- Legal DBTICK commands one after another complete, and run each button with its own bits. -/
theorem runCommands_dbtick {s : State} {b : Nat} (hlen : s.BTN.length = s.cfg.NB) (hb : b < s.cfg.NB)
    {words : List (BitVec 16)} (hlegal : ∀ w ∈ words, w.toNat < 2 ^ s.cfg.NB) :
    ∃ t, runCommands (words.map Instr.dbtick) s = .next t ∧
      t.button b = (s.button b).run s.cfg (words.map fun w => w.getLsbD b) := by
  induction words generalizing s with
  | nil => exact ⟨s, rfl, rfl⟩
  | cons w words ih =>
    obtain ⟨hw, hwords⟩ := List.forall_mem_cons.mp hlegal
    have hexec := exec_dbtick_of_legal hw
    obtain ⟨t, hrun, ht⟩ := ih (s := State.complete { s with BTN := tickAll s.cfg w s.BTN } .ok 0#32)
      ((length_tickAll _ _ _).trans hlen) hb hwords
    refine ⟨t, ?_, ?_⟩
    · simpa only [List.map_cons, runCommands, hexec] using hrun
    · rw [ht, button_of_exec_dbtick hlen hb hw hexec]
      rfl

/-! ### The window over several ticks -/

theorem Button.iterate_windowStep_of_unarmed {r : Button} (h : r.WIN.toNat = 0) (n : Nat) :
    Button.windowStep^[n] r = r := Function.iterate_fixed (windowStep_of_unarmed h) n

/-- A window with ticks left. -/
theorem Button.iterate_windowStep_of_lt {r : Button} {n : Nat} (h : n < r.WIN.toNat) :
    Button.windowStep^[n] r = { r with WIN := BitVec.ofNat 16 (r.WIN.toNat - n) } := by
  induction n with
  | zero => simp
  | succ n ih =>
    have hleft : (BitVec.ofNat 16 (r.WIN.toNat - n)).toNat = r.WIN.toNat - n :=
      Nat.mod_eq_of_lt (by have := r.WIN.isLt; omega)
    have running : 2 ≤ (BitVec.ofNat 16 (r.WIN.toNat - n)).toNat := by omega
    rw [Function.iterate_succ_apply', ih (by omega),
      windowStep_of_running (r := { r with WIN := BitVec.ofNat 16 (r.WIN.toNat - n) }) running, hleft, Nat.sub_sub]

/-- A window that ends, and what comes after its end. -/
theorem Button.iterate_windowStep_of_le {r : Button} {n : Nat} (hpos : 1 ≤ r.WIN.toNat) (h : r.WIN.toNat ≤ n) :
    Button.windowStep^[n] r = r.finalized := by
  have before : Button.windowStep^[r.WIN.toNat - 1] r = { r with WIN := 1#16 } := by
    rw [iterate_windowStep_of_lt (by omega), Nat.sub_sub_self hpos]
  have last : Button.windowStep^[r.WIN.toNat] r = r.finalized := by
    conv_lhs => rw [← Nat.sub_add_cancel hpos]
    rw [Function.iterate_succ_apply', before]
    exact windowStep_of_last rfl
  rw [← Nat.sub_add_cancel h, Function.iterate_add_apply, last]
  exact iterate_windowStep_of_unarmed rfl _

/-! ### Stretches of equal levels -/

/-- Asserted, the duration counts up to its cap while the window runs. -/
theorem Button.run_asserted {c : Cfg} (hcap : c.DUR_CAP ≤ 65535) {r : Button} (hr : r.DUR.toNat ≤ c.DUR_CAP)
    (n : Nat) :
    r.run c (List.replicate n true) =
      { Button.windowStep^[n] r with DUR := BitVec.ofNat 16 (min (r.DUR.toNat + n) c.DUR_CAP) } := by
  induction n with
  | zero => simp [Button.run, hr]
  | succ n ih =>
    have hDUR : (BitVec.ofNat 16 (min (r.DUR.toNat + n) c.DUR_CAP)).toNat = min (r.DUR.toNat + n) c.DUR_CAP :=
      Nat.mod_eq_of_lt (by omega)
    have hinc : satInc (min (r.DUR.toNat + n) c.DUR_CAP) c.DUR_CAP = min (r.DUR.toNat + (n + 1)) c.DUR_CAP := by
      unfold satInc
      omega
    rw [List.replicate_succ', run_append, ih, run_cons, tick_true, windowStep_with_DUR, hDUR, hinc,
      Function.iterate_succ_apply']
    rfl

/-- Released and idle, only the window runs. -/
theorem Button.run_idle (c : Cfg) {r : Button} (h : r.DUR.toNat = 0) (n : Nat) :
    r.run c (List.replicate n false) = Button.windowStep^[n] r := by
  induction n generalizing r with
  | zero => rfl
  | succ n ih =>
    rw [List.replicate_succ, run_cons, tick, levelStep_false_of_idle h, ih (by rw [windowStep_DUR, h]),
      Function.iterate_succ_apply]

/-- Released after a press, the first tick ends the press, and the window runs from that tick on. -/
theorem Button.run_released (c : Cfg) (r : Button) {n : Nat} (hn : 1 ≤ n) :
    r.run c (List.replicate n false) = Button.windowStep^[n] (r.levelStep c false) := by
  obtain ⟨n, rfl⟩ := Nat.exists_eq_add_of_le' hn
  rw [List.replicate_succ, run_cons, run_idle c (by rw [tick_false_DUR]; rfl), Function.iterate_succ_apply]
  rfl

/-! ### Presses of an idle button -/

/-- The record of a button without an event when its press number `n` has just been counted, and the window step of that
tick is still to come: the window is armed in full. -/
def Button.waiting (c : Cfg) (n : BitVec 2) : Button := ⟨0#16, n, BitVec.ofNat 16 c.DBL_WINDOW, true, .none⟩

/-- The first press, if it is a short one. -/
theorem Button.levelStep_first_press {c : Cfg} {d : BitVec 16} (hpos : 0 < d.toNat) (hmin : c.MIN_TH ≤ d.toNat)
    (hlong : d.toNat < c.LONG_TH) : { Button.reset with DUR := d }.levelStep c false = waiting c 1#2 :=
  levelStep_of_counted hpos hmin (.inl hlong)

/-- A second press of any valid length, with the window of the first still armed. -/
theorem Button.levelStep_second_press {c : Cfg} {d w : BitVec 16} (hpos : 0 < d.toNat) (hmin : c.MIN_TH ≤ d.toNat) :
    { waiting c 1#2 with DUR := d, WIN := w }.levelStep c false = waiting c 2#2 :=
  levelStep_of_counted hpos hmin (.inr rfl)

section
variable {c : Cfg} (hc : c.Valid)
include hc

theorem Button.waiting_WIN_toNat (n : BitVec 2) : (waiting c n).WIN.toNat = c.DBL_WINDOW := by
  obtain ⟨-, -, -, -, -, hwin⟩ := debouncer_ranges hc
  exact Nat.mod_eq_of_lt (by omega)

theorem Button.iterate_windowStep_waiting_of_lt (n : BitVec 2) {k : Nat} (hk : k < c.DBL_WINDOW) :
    Button.windowStep^[k] (waiting c n) = { waiting c n with WIN := BitVec.ofNat 16 (c.DBL_WINDOW - k) } := by
  have hWIN := waiting_WIN_toNat hc n
  rw [iterate_windowStep_of_lt (by omega), hWIN]

theorem Button.iterate_windowStep_waiting_of_le (n : BitVec 2) {k : Nat} (hk : c.DBL_WINDOW ≤ k) :
    Button.windowStep^[k] (waiting c n) = { Button.reset with EV := (waiting c n).finalEvent } := by
  obtain ⟨-, -, -, -, hpos, -⟩ := debouncer_ranges hc
  have hWIN := waiting_WIN_toNat hc n
  exact iterate_windowStep_of_le (by omega) (by omega)

/-- What `k` released ticks make of a press that is counted as number `n`: no event inside the window, and from its end
on the one event of the count. -/
theorem Button.run_counted_press {r : Button} {n : BitVec 2} (hEV : r.EV = .none)
    (hrelease : r.levelStep c false = waiting c n) (k : Nat) :
    (k < c.DBL_WINDOW → (r.run c (List.replicate k false)).EV = .none) ∧
    (c.DBL_WINDOW ≤ k →
      r.run c (List.replicate k false) = { Button.reset with EV := (waiting c n).finalEvent }) := by
  obtain ⟨-, -, -, -, hwin, -⟩ := debouncer_ranges hc
  rcases Nat.eq_zero_or_pos k with rfl | hk
  · exact ⟨fun _ => hEV, fun h => absurd hwin (by omega)⟩
  · rw [run_released c r hk, hrelease]
    refine ⟨fun h => ?_, iterate_windowStep_waiting_of_le hc n⟩
    rw [iterate_windowStep_waiting_of_lt hc n h]
    rfl

/-- A capped duration fits in `DUR`. -/
theorem toNat_capped_duration (d : Nat) : (BitVec.ofNat 16 (min d c.DUR_CAP)).toNat = min d c.DUR_CAP := by
  obtain ⟨-, -, -, hcap, -⟩ := debouncer_ranges hc
  exact Nat.mod_eq_of_lt (by omega)

/-- A press in progress, and how long it has lasted. -/
theorem Button.run_reset_asserted (d : Nat) :
    Button.reset.run c (List.replicate d true) = { Button.reset with DUR := BitVec.ofNat 16 (min d c.DUR_CAP) } := by
  obtain ⟨-, -, -, hcap, -⟩ := debouncer_ranges hc
  rw [run_asserted hcap (Nat.zero_le _), iterate_windowStep_of_unarmed rfl]
  simp [Button.reset]

/-- A second press in progress, with what is left of the window of the first. -/
theorem Button.run_waiting_asserted {g d : Nat} (hsep : g + d < c.DBL_WINDOW) :
    (Button.windowStep^[g] (waiting c 1#2)).run c (List.replicate d true) =
      { waiting c 1#2 with
        DUR := BitVec.ofNat 16 (min d c.DUR_CAP)
        WIN := BitVec.ofNat 16 (c.DBL_WINDOW - (d + g)) } := by
  obtain ⟨-, -, -, hcap, -⟩ := debouncer_ranges hc
  have hDUR : (Button.windowStep^[g] (waiting c 1#2)).DUR.toNat = 0 := by
    rw [iterate_windowStep_waiting_of_lt hc _ (by omega)]
    rfl
  rw [run_asserted hcap (by omega), hDUR, Nat.zero_add, ← Function.iterate_add_apply,
    iterate_windowStep_waiting_of_lt hc _ (by omega)]

end

/-- Settles O48: the press is counted at its release, and the released ticks run its window down. -/
theorem shortestPressGivesOnePress : Obligations.ShortestPressGivesOnePress := by
  intro s b k words hs hb hidle hML hlegal hlevels
  obtain ⟨t, hrun, ht⟩ := runCommands_dbtick hs.buttons hb hlegal
  obtain ⟨hpos, -, hcap, -⟩ := debouncer_ranges hs.cfg
  have hDUR := toNat_capped_duration hs.cfg s.cfg.MIN_TH
  rw [hidle, hlevels, Button.run_append, Button.run_reset_asserted hs.cfg] at ht
  refine ⟨t, hrun, ?_⟩
  rw [ht]
  exact Button.run_counted_press hs.cfg rfl
    (Button.levelStep_first_press (by omega) (by omega) (by omega)) k

/-- Settles O49: the window of the first press still runs when the second is released, and that release arms it
again. -/
theorem twoPressesInTheWindowGiveDoublePress : Obligations.TwoPressesInTheWindowGiveDoublePress := by
  intro s b d₁ g d₂ k words hs hb hidle hmin₁ hlong₁ hg hmin₂ hsep hlegal hlevels
  obtain ⟨t, hrun, ht⟩ := runCommands_dbtick hs.buttons hb hlegal
  obtain ⟨hpos, hML, hcap, -⟩ := debouncer_ranges hs.cfg
  have hDUR₁ := toNat_capped_duration hs.cfg d₁
  have hDUR₂ := toNat_capped_duration hs.cfg d₂
  have hfirst := Button.levelStep_first_press (c := s.cfg) (d := BitVec.ofNat 16 (min d₁ s.cfg.DUR_CAP)) (by omega)
    (by omega) (by omega)
  rw [hidle, hlevels, Button.run_append, Button.run_append, Button.run_append, Button.run_reset_asserted hs.cfg,
    Button.run_released _ _ hg, hfirst, Button.run_waiting_asserted hs.cfg (by omega)] at ht
  refine ⟨t, hrun, ?_⟩
  rw [ht]
  exact Button.run_counted_press hs.cfg rfl (Button.levelStep_second_press (by omega) (by omega)) k

/-- Settles O50: with `SEEN = 0` a release after `LONG_TH` ticks or more emits LongPress and leaves the window alone. -/
theorem longPressIsEmittedAtRelease : Obligations.LongPressIsEmittedAtRelease := by
  intro s b d k words hs hb hidle hlong hlegal hlevels
  obtain ⟨t, hrun, ht⟩ := runCommands_dbtick hs.buttons hb hlegal
  rw [hidle, hlevels, Button.run_append, Button.run_reset_asserted hs.cfg] at ht
  refine ⟨t, hrun, fun hk => ?_, fun hk => ?_⟩
  · rw [ht, hk]
    exact ⟨rfl, rfl⟩
  · obtain ⟨hpos, hML, hcap, -⟩ := debouncer_ranges hs.cfg
    have hDUR := toNat_capped_duration hs.cfg d
    rw [ht, Button.run_released _ _ hk, Button.levelStep_false_of_pressed (by dsimp only; omega),
      Button.release_of_long (by dsimp only; omega) rfl]
    exact Button.iterate_windowStep_of_unarmed rfl k

end Sys2Proof.Machine
end

