-- ==== Sys2Proof/Proofs/SamplerSystem.lean ====
section
/-! The Sampler's step, the handshake commands and the readback of the frames (`43_sampler_system.md` R211 to R218,
R226). -/

namespace Sys2Proof.Machine

/-! ### The Sampler's step (R226) -/

/-- A valid configuration lets the next input, a Sampler completion, through (`20_memory.md` R72). -/
theorem step_of_sampler {s : State} {block : List Sample} {rest : List Input} (hc : s.cfg.Valid)
    (hin : s.inbox = .sampler block :: rest) : step s = samplerStep block { s with inbox := rest } := by
  simp only [step, oneStep, if_pos hc, takeInput, hin, deliver]

/-- Writing every element of a block over `RAW` makes `RAW` that block: no old sample is left. -/
theorem fill_RAW_block {c : Cfg} {m : Memory} (h : m.wf c) {block : List Sample} (hlen : block.length = c.N)
    (d : Nat → Sample) : m.fill .RAW c.N (fun i => block.getD i (d i)) = { m with RAW := block } := by
  obtain ⟨hRAW, -⟩ := h
  have helem (i : Nat) (hi : i < block.length) : block.getD i (d i) = block[i] := List.getD_eq_getElem _ _ hi
  rw [Memory.fill, writeFirst_eq_of_length hRAW hlen _ helem]

/-- While `FILLING = 1`, a block of N samples is taken, whole. -/
theorem samplerStep_of_filling {s : State} {block : List Sample} (hwf : s.mem.wf s.cfg)
    (hlen : block.length = s.cfg.N) (hF : s.FILLING = true) :
    samplerStep block s = .next { s.sampled with mem := { s.mem with RAW := block } } := by
  rw [← fill_RAW_block hwf hlen Config.absentElement]
  simp [samplerStep, hF, hlen]

/-- Settles O8: the completion is taken off the inbox, and its block fills the whole of `RAW`. -/
theorem samplerStepWritesTheBlock : Obligations.SamplerStepWritesTheBlock := by
  intro s block rest hc hwf hin hlen hF
  rw [step_of_sampler hc hin]
  exact samplerStep_of_filling (s := { s with inbox := rest }) hwf hlen hF

/-! ### The handshake commands and NOP (R211 to R214, R218) -/

/-- The data of SPOLL: `COMPLETE` as a 32-bit number. -/
theorem zext32_flagBit (b : Bool) : zext32 (flagBit b) = if b = true then 1#32 else 0#32 := by
  cases b <;> rfl

theorem exec_spoll (s : State) :
    exec .spoll s = .next (s.complete .ok (if s.COMPLETE = true then 1#32 else 0#32)) := by
  rw [← zext32_flagBit]
  rfl

/-- Settles O53: each command is one update of the flags and one response, by definition; only the data of SPOLL is
computed. -/
theorem handshakeCommandsAndNop : Obligations.HandshakeCommandsAndNop :=
  fun s => ⟨rfl, rfl, rfl, exec_spoll s, rfl⟩

/-! ### Reading one element of a frame (R216, R217) -/

theorem exec_rdcur (s : State) (k : BitVec 16) :
    exec (.rdcur k) s =
      if k.toNat < s.cfg.W then .next (s.complete .ok (zext32 (s.mem.read .CUR k.toNat)))
      else .next (s.complete .badIndex 0#32) := by
  simp [exec, execRdcur, frameIndexInRange]

theorem exec_rdprv (s : State) (k : BitVec 16) :
    exec (.rdprv k) s =
      if k.toNat < s.cfg.W then .next (s.complete .ok (zext32 (s.mem.read .PRV k.toNat)))
      else .next (s.complete .badIndex 0#32) := by
  simp [exec, execRdprv, frameIndexInRange]

/-- Settles O55: the two branches of the index check; a 16-bit element keeps its value in 32 bits. -/
theorem rdcurAndRdprvReadOneElement : Obligations.RdcurAndRdprvReadOneElement := by
  intro s k
  rw [exec_rdcur, exec_rdprv]
  refine ⟨fun h => ⟨⟨_, zext32_toNat (by decide) _, if_pos h⟩, ⟨_, zext32_toNat (by decide) _, if_pos h⟩⟩,
    fun h => ?_⟩
  have outside : ¬ k.toNat < s.cfg.W := Nat.not_lt.mpr h
  exact ⟨if_neg outside, if_neg outside⟩

end Sys2Proof.Machine
end

