-- ==== Sys2Proof/Proofs/ModeController.lean ====
section
/-! The reference host's turn: one action of its agenda, PRODUCE with its restart, the poll of a button with its
dispatch, and what of the host a step can change (`44_mode_controller.md` R240 to R248, `70_reset_and_hazards.md`
R292). -/

namespace Sys2Proof.Machine

/-- The ranges of `00_scope.md` R4 and R5 that the reference host relies on. -/
theorem host_ranges {c : Cfg} (hc : c.Valid) :
    c.NB ≤ 16 ∧ c.MODE_BTN < c.NB ∧ c.PAUSE_BTN < c.NB ∧ c.PAUSE_KIND ≠ .none := by
  obtain ⟨-, -, -, -, -, -, -, ⟨-, hNB⟩, -, -, -, -, -, -, -, hmode, hpause, hkind⟩ := hc
  exact ⟨hNB, hmode, hpause, hkind⟩

/-! ### The modes (R243) -/

theorem modeCode_nextMode (m : Mode) : modeCode (nextMode m) = (modeCode m + 1) % 3 := by cases m <;> rfl

theorem nextMode_ne_self (m : Mode) : nextMode m ≠ m := by cases m <;> decide

theorem minimalPeriod_nextMode (m : Mode) : Function.minimalPeriod nextMode m = 3 := by
  have period_three : Function.IsPeriodicPt nextMode 3 m := by cases m <;> rfl
  have := Fact.mk Nat.prime_three
  exact Function.minimalPeriod_eq_prime period_three (nextMode_ne_self m)

/-- Settles O60: three is the least period of every mode, and the periods are its multiples. -/
theorem modeCyclesWithPeriodThree : Obligations.ModeCyclesWithPeriodThree := fun m n =>
  calc nextMode^[n] m = m
    _ ↔ Function.minimalPeriod nextMode m ∣ n := Function.isPeriodicPt_iff_minimalPeriod_dvd
    _ ↔ 3 ∣ n := by rw [minimalPeriod_nextMode]

/-! ### One action of the agenda (R241, R242, R245, R246, R292) -/

/-- The state with the input taken off the inbox, and the agenda as it stands once an action is taken off it. -/
def State.turn (s : State) (rest : List Input) (later : List HostAction) : State :=
  { s with inbox := rest, host := { s.host with agenda := later } }

/-- A valid configuration lets the host do the action at the head of its agenda. -/
theorem step_of_hostTurn {s : State} {rest : List Input} {a : HostAction} {later : List HostAction}
    (hc : s.cfg.Valid) (hin : s.inbox = .hostTurn :: rest) (ha : s.host.agenda = a :: later) :
    step s = hostAction a (s.turn rest later) := by
  simp only [step, oneStep, if_pos hc, takeInput, hin, deliver, hostTurn, ha, State.turn]

theorem issueWord_encode {i : Instr} {s : State} (hi : i.wellFormed s.cfg = true) :
    issueWord (encode i) s = exec i s :=
  issueWord_of_decodeCmd (decodeOfEncodeIsIdentity s.cfg i hi)

/-- Settles O56: the turn is `hostAction` for the head of the agenda, whose lists are those of the statement. -/
theorem hostTurnDoesTheNextAction : Obligations.HostTurnDoesTheNextAction := by
  intro s rest later hc hin asks
  refine ⟨fun ha => step_of_hostTurn hc hin ha, fun _ ha => step_of_hostTurn hc hin ha,
    fun _ ha => step_of_hostTurn hc hin ha, fun reading d ha => ?_, fun i hi ha => ?_⟩
  · rw [step_of_hostTurn hc hin ha]
    cases reading <;> cases d <;> rfl
  · rw [step_of_hostTurn hc hin ha]
    exact issueWord_encode hi

/-! ### PRODUCE and its restart (R245) -/

/-- The two statuses of a PRODUCE that was carried out are followed by SRESTART. -/
theorem afterProduce_host_of_carriedOut (u : State) (p : Prop) [Decidable p] (d : BitVec 32) :
    (afterProduce (u.complete (if p then .refFallback else .ok) d)).host =
      { u.host with agenda := .issue .srestart :: u.host.agenda } := by
  split <;> rfl

/-- Settles O57: the two branches of PRODUCE's gate. Behind it the host sees a status that says the command was carried
out, at it NOT_READY, after which it does nothing. -/
theorem hostRestartsAfterConsuming : Obligations.HostRestartsAfterConsuming := by
  intro s rest later hs hin ha
  rw [step_of_hostTurn hs.cfg hin ha, hostAction, issueWord_encode rfl]
  cases hC : s.COMPLETE with
  | false =>
    rw [produceIsGatedOnComplete (s.turn rest later) hC]
    exact ⟨_, rfl, rfl, rfl, rfl⟩
  | true =>
    rw [exec_produce_of_complete (s := s.turn rest later) hC hs.decim_ne_zero]
    have hhost := afterProduce_host_of_carriedOut (produced (s.turn rest later)) (s.REF = 0#16) 0#32
    exact ⟨_, rfl, congrArg (·.MODE) hhost, congrArg (·.PAUSED) hhost, congrArg (·.agenda) hhost⟩

/-! ### The poll of a button (R242) -/

/-- The host once it has read the event `ev` of button `b`: dispatched, unless it is none. -/
def polled (c : Cfg) (h : ModeController) (b : Nat) (ev : Event) : ModeController :=
  if ev = .none then h else dispatchEvent c h b ev

theorem afterPoll_eq_polled (b : Nat) (s : State) (ev : Event) :
    afterPoll b (s.complete .ok (zext32 (eventCode ev))) =
      { s.complete .ok (zext32 (eventCode ev)) with host := polled s.cfg s.host b ev } := by
  rw [afterPoll_of_evrd, polled]
  split <;> rfl

/-- The poll of an existing button answers the code of its event and moves the host. -/
theorem step_of_poll {s : State} {rest : List Input} {b : Nat} {later : List HostAction} (hc : s.cfg.Valid)
    (hin : s.inbox = .hostTurn :: rest) (ha : s.host.agenda = .poll b :: later) (hb : b < s.cfg.NB) :
    step s = .next
      { (s.turn rest later).complete .ok (zext32 (eventCode (s.button b).EV)) with
        host := polled s.cfg (s.turn rest later).host b (s.button b).EV } := by
  have hNB := (host_ranges hc).1
  rw [step_of_hostTurn hc hin ha, hostAction, issueWord_evrd (s := s.turn rest later) hb hNB]
  exact congrArg _ (afterPoll_eq_polled b (s.turn rest later) (s.button b).EV)

section
variable {c : Cfg} {h : ModeController} {b : Nat} {ev : Event}

theorem polled_of_none (hnone : ev = .none) : polled c h b ev = h := if_pos hnone

/-- A DoublePress of the mode-switch button (R243). -/
theorem polled_of_switch (hswitch : b = c.MODE_BTN ∧ ev = .doublePress) :
    polled c h b ev =
      { h with
        MODE := nextMode h.MODE
        agenda := (if nextMode h.MODE = .scope then scopeEnter else []) ++ clearEvent b :: h.agenda } := by
  have hnone : ev ≠ .none := by simp [hswitch.2]
  rw [polled, if_neg hnone, dispatchEvent, if_pos hswitch]

/-- The pause event in Scope mode, if it is no mode switch (R244). -/
theorem polled_of_pause (hnone : ev ≠ .none) (hswitch : ¬ (b = c.MODE_BTN ∧ ev = .doublePress))
    (hpause : b = c.PAUSE_BTN ∧ ev = c.PAUSE_KIND ∧ h.MODE = .scope) :
    polled c h b ev = { h with PAUSED := !h.PAUSED, agenda := clearEvent b :: h.agenda } := by
  rw [polled, if_neg hnone, dispatchEvent, if_neg hswitch, if_pos hpause]

/-- Every other event is only cleared. -/
theorem polled_of_other (hnone : ev ≠ .none) (hswitch : ¬ (b = c.MODE_BTN ∧ ev = .doublePress))
    (hpause : ¬ (b = c.PAUSE_BTN ∧ ev = c.PAUSE_KIND ∧ h.MODE = .scope)) :
    polled c h b ev = { h with agenda := clearEvent b :: h.agenda } := by
  rw [polled, if_neg hnone, dispatchEvent, if_neg hswitch, if_neg hpause]

end

/-- Settles O58: `step_of_poll`, and `polled` by its cases; a pause event is an event, because the configuration names
none as one. -/
theorem hostPollDispatchesTheEvent : Obligations.HostPollDispatchesTheEvent := by
  intro s rest later b hs hin ha hb ev switch pause clear
  obtain ⟨-, -, -, hkind⟩ := host_ranges hs.cfg
  have pause_is_event : pause → ev ≠ .none := fun ⟨_, hev, _⟩ hnone => hkind (hev.symm.trans hnone)
  refine ⟨_, step_of_poll hs.cfg hin ha hb, rfl, polled_of_none, fun hswitch => ?_,
    fun hswitch hpause => polled_of_pause (pause_is_event hpause) hswitch hpause,
    fun hnone hswitch hpause => polled_of_other hnone hswitch hpause⟩
  dsimp only
  rw [polled_of_switch hswitch]
  exact ⟨modeCode_nextMode _, rfl, rfl⟩

/-! ### What a step can change of the host (R240, R247, R292) -/

theorem polled_changes (c : Cfg) (h : ModeController) (b : Nat) (ev : Event) :
    ((polled c h b ev).MODE ≠ h.MODE → ev = .doublePress) ∧
    ((polled c h b ev).PAUSED ≠ h.PAUSED → ev = c.PAUSE_KIND) := by
  unfold polled
  split
  · simp
  · obtain ⟨-, -, -, hmode, hpaused⟩ := dispatchEvent_cases c h b ev
    exact ⟨fun hne => (hmode hne).2, fun hne => (hpaused hne).2.1⟩

/-- A poll that changes the mode has found a DoublePress, and one that changes the flag the pause event. -/
theorem event_of_poll_changes {s t : State} {rest : List Input} {b : Nat} {later : List HostAction}
    (h : step s = .next t) (hin : s.inbox = .hostTurn :: rest) (ha : s.host.agenda = .poll b :: later)
    (hb : b < s.cfg.NB) :
    (t.host.MODE ≠ s.host.MODE → (s.button b).EV = .doublePress) ∧
    (t.host.PAUSED ≠ s.host.PAUSED → (s.button b).EV = s.cfg.PAUSE_KIND) := by
  rw [step_of_poll (step_next_cases h).1 hin ha hb] at h
  cases h
  exact polled_changes s.cfg (s.turn rest later).host b (s.button b).EV

/-- Settles O59: of the three things a step can do to the host, only its turn can change the mode, the flag or a startup
at the head of the agenda, and none of them brings a startup. -/
theorem hostChangesOnlyByItsRules : Obligations.HostChangesOnlyByItsRules := by
  intro s t h
  obtain ⟨-, hmodeBtn, hpauseBtn, -⟩ := host_ranges (step_next_cases h).1
  rcases step_host_cases h with hsame | ⟨e, hqueued⟩ | ⟨rest, a, later, pre, hin, ha, ha', hpre, hmode, hpaused⟩
  · simp +contextual [hsame]
  · simp +contextual [hqueued]
  · refine ⟨fun hne => ?_, fun hne => ?_, fun _ _ _ _ => .inr ⟨rest, hin⟩, fun hno r d hmem => ?_⟩
    · have hpoll := hmode hne ▸ ha
      exact ⟨(event_of_poll_changes h hin hpoll hmodeBtn).1 hne, rest, later, hin, hpoll⟩
    · obtain ⟨ha_poll, hscope⟩ := hpaused hne
      have hpoll := ha_poll ▸ ha
      exact ⟨(event_of_poll_changes h hin hpoll hpauseBtn).2 hne, hscope, rest, later, hin, hpoll⟩
    · rcases List.mem_append.mp (ha' ▸ hmem) with hm | hm
      · exact hpre r d hm
      · exact hno r d (ha ▸ List.mem_cons_of_mem a hm)

end Sys2Proof.Machine
end

/-! The statuses each command can answer (`60_exceptions.md` R260), and progress: no state that meets the invariant is
stuck (R271). -/

namespace Sys2Proof.Machine

/-! ### Which command raises which status (R260) -/

/-- The commands whose own rule checks an index (R265). -/
def ChecksIndex (i : Instr) : Prop :=
  (∃ a, i = .evrd a ∨ i = .evclr a ∨ i = .rdreg a) ∨ ∃ k, i = .rdcur k ∨ i = .rdprv k

/-- The "raised by" column of R260, for the command `i` issued in the state `s`. -/
def Status.RaisedBy (s : State) (i : Instr) : Status → Prop
  | .ok => True
  | .notReady => i = .produce ∧ s.COMPLETE = false
  | .decimClamped => ∃ imm, i = .setdec imm
  | .refFallback => i = .produce ∧ s.REF.toNat = 0
  | .illegalCmd => i.wellFormed s.cfg = false
  | .badIndex => ChecksIndex i

section
variable {s t : State} {x : Response}

/-- A command that answers OK inside its range and BAD_INDEX outside has raised what it may, if it checks an index. -/
theorem raisedBy_of_index_check {i : Instr} (hi : ChecksIndex i) {p : Prop} [Decidable p] {u v : State}
    {d e : BitVec 32}
    (h : (if p then .next (u.complete .ok d) else .next (v.complete .badIndex e) : Result) = .next t)
    (hx : t.response = some x) : x.status.RaisedBy s i := by
  split at h <;> cases h <;> cases hx
  · exact trivial
  · exact hi

theorem raisedBy_of_exec_produce (h : exec .produce s = .next t) (hx : t.response = some x) :
    x.status.RaisedBy s .produce := by
  rcases exec_produce_next_cases h with ⟨hC, rfl⟩ | ⟨-, -, rfl⟩ <;> cases hx
  · exact ⟨rfl, hC⟩
  · dsimp only
    split
    case isTrue hR => exact ⟨rfl, congrArg BitVec.toNat hR⟩
    case isFalse => exact trivial

theorem raisedBy_of_exec_setdec {imm : BitVec 16} (h : exec (.setdec imm) s = .next t) (hx : t.response = some x) :
    x.status.RaisedBy s (.setdec imm) := by
  rw [exec_setdec] at h
  cases h
  cases hx
  dsimp only
  split
  · exact trivial
  · exact ⟨imm, rfl⟩

theorem raisedBy_of_exec_dbtick {imm : BitVec 16} (h : exec (.dbtick imm) s = .next t) (hx : t.response = some x) :
    x.status.RaisedBy s (.dbtick imm) := by
  rcases Nat.lt_or_ge imm.toNat (2 ^ s.cfg.NB) with hl | hl
  · rw [exec_dbtick_of_legal hl] at h
    cases h
    cases hx
    exact trivial
  · rw [exec_dbtick_of_illegal hl] at h
    cases h
    cases hx
    exact Bool.eq_false_iff.mpr fun hw => absurd (levelsLegal_iff.mp hw) (Nat.not_lt.mpr hl)

theorem raisedBy_of_exec_rdreg {a : BitVec 8} (h : exec (.rdreg a) s = .next t) (hx : t.response = some x) :
    x.status.RaisedBy s (.rdreg a) := by
  cases hr : readRegister s a with
  | some v =>
    rw [exec_rdreg_of_some hr] at h
    cases h
    cases hx
    exact trivial
  | none =>
    rw [exec_rdreg_of_none hr] at h
    cases h
    cases hx
    exact .inl ⟨a, .inr (.inr rfl)⟩

/-- Every command answers a status that R260 gives it; a command with no check and no notice answers OK. -/
theorem raisedBy_of_exec {i : Instr} (h : exec i s = .next t) (hx : t.response = some x) :
    x.status.RaisedBy s i := by
  cases i
  case produce => exact raisedBy_of_exec_produce h hx
  case setdec imm => exact raisedBy_of_exec_setdec h hx
  case dbtick imm => exact raisedBy_of_exec_dbtick h hx
  case evrd a => exact raisedBy_of_index_check (.inl ⟨a, .inl rfl⟩) (exec_evrd s a ▸ h) hx
  case evclr a => exact raisedBy_of_index_check (.inl ⟨a, .inr (.inl rfl)⟩) (exec_evclr s a ▸ h) hx
  case rdreg a => exact raisedBy_of_exec_rdreg h hx
  case rdcur k => exact raisedBy_of_index_check (.inr ⟨k, .inl rfl⟩) (exec_rdcur s k ▸ h) hx
  case rdprv k => exact raisedBy_of_index_check (.inr ⟨k, .inr rfl⟩) (exec_rdprv s k ▸ h) hx
  all_goals
    cases h
    cases hx
    exact trivial

end

theorem Status.code_toNat_le (st : Status) : st.code.toNat ≤ 5 := by cases st <;> decide

theorem Status.eq_of_code_toNat_eq {st st' : Status} (h : st.code.toNat = st'.code.toNat) : st = st' := by
  revert h
  cases st <;> cases st' <;> decide

/-- Settles O18: the status is one that R260 gives the command, and a code stands for one status. -/
theorem statusesRaisedByEachCommand : Obligations.StatusesRaisedByEachCommand := by
  intro s t i x h hx
  have raised_of_code (st : Status) (hcode : x.status.code.toNat = st.code.toNat) : st.RaisedBy s i :=
    Status.eq_of_code_toNat_eq hcode ▸ raisedBy_of_exec h hx
  exact ⟨x.status.code_toNat_le, raised_of_code .notReady, raised_of_code .decimClamped,
    raised_of_code .refFallback, raised_of_code .illegalCmd, raised_of_code .badIndex⟩

/-! ### Progress (R271) -/

section
variable {s : State}

/-- A word on the port completes, command or not, while the step is not 0. -/
theorem issueWord_completes (hd : s.DECIM ≠ 0#16) (w : Word) :
    ∃ t, issueWord w s = .next t ∧ t.inbox = s.inbox := by
  have ⟨t, ht⟩ : ∃ t, issueWord w s = .next t := by
    cases hdecode : decodeCmd s.cfg w with
    | ok i =>
      obtain ⟨u, st, d, he⟩ := exec_completes hd i
      exact ⟨_, (issueWord_of_decodeCmd hdecode).trans he⟩
    | error e => exact ⟨_, issueWord_of_no_command fun i => by simp [hdecode]⟩
  exact ⟨t, ht, (issueWord_keeps_host ht).2.1⟩

theorem andThen_completes {r : Result} {f : State → State} {y : List Input}
    (hr : ∃ u, r = .next u ∧ u.inbox = y) (hf : ∀ u, ∃ x, f u = { u with host := x }) :
    ∃ t, andThen r f = .next t ∧ t.inbox = y := by
  obtain ⟨u, rfl, hu⟩ := hr
  obtain ⟨x, hx⟩ := hf u
  exact ⟨f u, rfl, by rw [hx]; exact hu⟩

/-- Every action of the reference host completes: it issues at most one word, and then moves itself alone. -/
theorem hostAction_completes (hd : s.DECIM ≠ 0#16) (a : HostAction) :
    ∃ t, hostAction a s = .next t ∧ t.inbox = s.inbox := by
  cases a with
  | startup reading step => exact ⟨_, rfl, rfl⟩
  | handle e => exact ⟨_, rfl, rfl⟩
  | issue i => exact issueWord_completes hd _
  | poll b => exact andThen_completes (issueWord_completes hd _) (afterPoll_changes_host b)
  | produceFrame => exact andThen_completes (issueWord_completes hd _) afterProduce_changes_host

theorem hostTurn_completes (hd : s.DECIM ≠ 0#16) : ∃ t, hostTurn s = .next t ∧ t.inbox = s.inbox := by
  cases hagenda : s.host.agenda with
  | nil => exact ⟨s, by rw [hostTurn, hagenda], rfl⟩
  | cons a later =>
    rw [hostTurn, hagenda]
    exact hostAction_completes (s := { s with host := { s.host with agenda := later } }) hd a

/-- A completion that brings a block is taken, or dropped while `FILLING = 0` (`43_sampler_system.md` R226, R227). -/
theorem samplerStep_completes {block : List Sample} (hlen : block.length = s.cfg.N) :
    ∃ t, samplerStep block s = .next t ∧ t.inbox = s.inbox := by
  rw [samplerStep, if_pos hlen]
  split <;> exact ⟨_, rfl, rfl⟩

/-- What an input does takes no other input, and ends in a next state. -/
theorem deliver_completes (hd : s.DECIM ≠ 0#16) {x : Input} (hx : x.Ok s.cfg) :
    ∃ t, deliver x s = .next t ∧ t.inbox = s.inbox := by
  cases x with
  | command w => exact issueWord_completes hd w
  | sampler block => exact samplerStep_completes hx
  | stimulus e => exact ⟨_, rfl, rfl⟩
  | hostTurn => exact hostTurn_completes hd

/-- A step takes the first input, if there is one, and completes. -/
theorem step_completes (hs : s.Inv) (hin : s.InputsOk) : ∃ t, step s = .next t ∧ t.inbox = s.inbox.tail := by
  simp only [step, oneStep, if_pos hs.cfg, takeInput]
  cases hinbox : s.inbox with
  | nil => exact ⟨s, rfl, hinbox⟩
  | cons x rest =>
    have hx : x.Ok s.cfg := hin x (hinbox ▸ List.mem_cons_self)
    exact deliver_completes (s := { s with inbox := rest }) hs.decim_ne_zero hx

end

/-- Settles O15: the step completes and keeps the invariant (O14), and the inputs still to come are some of those before,
under the same configuration (O21). -/
theorem noReachableStateIsStuck : Obligations.NoReachableStateIsStuck := by
  intro s hs hin
  obtain ⟨t, ht, hinbox⟩ := step_completes hs hin
  have hcfg : t.cfg = s.cfg := (traceOnlyGrowsAndConfigurationIsFixed s t ht).2
  refine ⟨t, ht, everyStepKeepsTheInvariant s t hs ht, fun x hx => ?_⟩
  rw [hcfg]
  exact hin x (List.mem_of_mem_tail (hinbox ▸ hx))

end Sys2Proof.Machine

/-! The steps that do no work: no input (R291), a Sampler completion that is not enabled (R226), and the two refusals of
the step itself (U8, R226). -/

namespace Sys2Proof.Machine

section
variable {s : State} {block : List Sample}

/-- The rules say nothing of a machine whose configuration breaks a constraint (`93_implementation_defined.md` U8). -/
theorem step_of_not_valid (hc : ¬ s.cfg.Valid) : step s = .refused .invalidConfiguration :=
  if_neg hc

theorem step_of_empty_inbox (hc : s.cfg.Valid) (hin : s.inbox = []) : step s = .next s := by
  simp only [step, oneStep, if_pos hc, takeInput, hin]

/-- A completion is enabled only while `FILLING = 1` (`43_sampler_system.md` R226): it is dropped otherwise, whatever
block it brings. -/
theorem samplerStep_of_idle (hF : s.FILLING = false) : samplerStep block s = .next s :=
  if_pos hF

/-- An enabled completion must bring a block of N samples (`43_sampler_system.md` R226). -/
theorem samplerStep_of_length_ne (hF : s.FILLING = true) (hlen : block.length ≠ s.cfg.N) :
    samplerStep block s = .refused .blockNotOfLengthN := by
  have enabled : ¬ s.FILLING = false := by simp [hF]
  rw [samplerStep, if_neg enabled, if_neg hlen]

end

/-- Settles O9: the completion is taken off the inbox, and the Sampler's step, not enabled, leaves the rest. -/
theorem samplerStepIsNotEnabledWhileIdle : Obligations.SamplerStepIsNotEnabledWhileIdle := by
  intro s block rest hc hin hF
  rw [step_of_sampler hc hin]
  exact samplerStep_of_idle (s := { s with inbox := rest }) hF

/-- Settles O10: there is no input to take. -/
theorem nothingHappensWithoutInput : Obligations.NothingHappensWithoutInput :=
  fun _ hc hin => step_of_empty_inbox hc hin

/-- Settles O11: the configuration is checked before an input is taken, the block's length by the enabled completion. -/
theorem stepRefusesWhatIsNoMachineOrNoBlock : Obligations.StepRefusesWhatIsNoMachineOrNoBlock := by
  refine ⟨fun _ hc => step_of_not_valid hc, fun s block rest hc hin hF hlen => ?_⟩
  rw [step_of_sampler hc hin]
  exact samplerStep_of_length_ne (s := { s with inbox := rest }) hF hlen

end Sys2Proof.Machine
